-- ==== Sys2Proof/Word.lean ====
section
/-! DEFINITION. The two word types of the machine (00_scope.md R6, R7): 8-bit data and 16-bit bus addresses. -/

namespace Sys2Proof

/-- A byte: the data width, 8 bits (R6). -/
abbrev Byte := BitVec 8

/-- A bus address: 16 bits (R6, R50). -/
abbrev Addr := BitVec 16

end Sys2Proof
end

