-- ==== Sys2Proof/Machine/Bits.lean ====
section
/-! DEFINITION. The byte-order, zero- and sign-extension helpers of 00_scope.md R7. -/

namespace Sys2Proof

/-- `lo8(v) = v[7:0]` (R7). -/
def lo8 (w : Addr) : Byte := w.setWidth 8

/-- `hi8(v) = v[15:8]` (R7). -/
def hi8 (w : Addr) : Byte := (w >>> 8).setWidth 8

/-- `word(hi, lo) = hi * 256 + lo` (R7). -/
def word (hi lo : Byte) : Addr := hi ++ lo

/-- `zext_16(b)`: the byte as a 16-bit value, 0 to 255 (R7). -/
def zext16 (b : Byte) : Addr := b.setWidth 16

/-- `sext_16(b)`: the byte read as a two's-complement number, at 16 bits (R7). -/
def sext16 (b : Byte) : Addr := b.signExtend 16

end Sys2Proof
end

