-- ==== Sys2Proof/Config.lean ====
section
/-! DEFINITION. What an implementation fixes and the free values (00_scope.md R6, 92_eei_decisions.md section 1). A free value is an
`opaque` constant with no body: nothing in Lean can evaluate it, so every theorem holds whatever it is. -/

namespace Sys2Proof

/-- The 32 register names of the `PERIPH` port (20_memory.md R57). -/
inductive PeriphReg where
  /-- `G(k)`, register k of the window at 0x2000 to 0x3FFF (R55). -/
  | g (k : Fin 8)
  /-- `IO(k)`, the register at 0x4000 + k; the index 0x14 does not occur, that address is `dma` (R57). -/
  | io (k : Fin 24)
  /-- `DMA`, the register at 0x4014 (R57, R59). -/
  | dma
  deriving DecidableEq, Repr

/-- One transaction of the peripheral stream (R58, R59). -/
inductive PeriphEvent where
  /-- `(read, reg)` (R58). -/
  | read (reg : PeriphReg)
  /-- `(write, reg, v)` (R59). -/
  | write (reg : PeriphReg) (v : Byte)
  deriving DecidableEq, Repr

/-- FREE VALUE `PERIPH_ORACLE` (R58, decision D19): the byte an external peripheral answers to a read of a register, after the
transactions listed, that read being the last of them. Entry 6. -/
opaque Config.periphOracle : List PeriphEvent → PeriphReg → Byte

/-- FREE VALUE `CYC_INIT` (10_state.md R33, decision D21): the cycle counter after `POWER_ON`. Entry 4. -/
opaque Config.cycInit : Nat

/-- FREE VALUE: the cost a launch fixes for an opcode value, none where it keeps the default of 70_reset_and_hazards.md R283
(`CYCLE_COST` is an open parameter, R282, decision D20). Entry 5. -/
opaque Config.launchCycleCost : Byte → Option Nat

/-- FREE VALUE: the cost of an opcode value for which neither a launch nor R283 gives one (R282). Entry 5. -/
opaque Config.untabledCycleCost : Byte → Nat

end Sys2Proof
end

