-- ==== Sys2Proof/Machine/State.lean ====
section
/-! DEFINITION. The state of the machine as plain data (10_state.md R20), its named updates, the reasons a step can stop, and the state
right after reset (R36). -/

namespace Sys2Proof.Machine

/-- A store of bytes by index: a list of (index, byte) pairs in canonical form, indices strictly rising and no byte equal to what an
unlisted index reads as (`Memory.wf`). -/
abbrev Memory := List Host.Cell

/-- The status word: seven stored flags (10_state.md R25). Bit 5 is not stored (R26); it appears in the byte image only. -/
structure Status where
  /-- carry, bit 0 -/
  c : Bool
  /-- zero, bit 1 -/
  z : Bool
  /-- interrupt-disable, bit 2 -/
  i : Bool
  /-- decimal, bit 3 -/
  d : Bool
  /-- break, bit 4 -/
  b : Bool
  /-- overflow, bit 6 -/
  v : Bool
  /-- negative, bit 7 -/
  n : Bool
  deriving DecidableEq, Repr

/-- The direction of a bus access in a report (60_exceptions.md R241). -/
inductive Direction where
  | read
  | write
  deriving DecidableEq, Repr

/-- A record of the `REPORT` stream (60_exceptions.md R241). Raising one never stops or diverts the machine. -/
inductive Report where
  /-- E1 (R242). -/
  | unsupportedOpcode (op : Byte)
  /-- E2 (R243). -/
  | unhandledAddress (a : Addr) (dir : Direction)
  /-- E3 (R244). -/
  | unsupportedWrite (a : Addr) (v : Byte)
  deriving DecidableEq, Repr

/-- `PRG_PAGES`, the number of 16 KiB program pages: 1 ("mirrored") or 2 (20_memory.md R60). -/
inductive PrgPages where
  | one
  | two
  deriving DecidableEq, Repr

/-- `PRG_PAGES * 0x4000`, the number of bytes of `PRG` (R60). -/
def PrgPages.size : PrgPages → Nat
  | .one => 0x4000
  | .two => 0x8000

/-- The whole state. The launch parameters `PRG` and `PRG_PAGES` stand in it because `step` takes nothing else (entry 1). -/
structure State where
  /-- `A`, the accumulator (R21). -/
  a : Byte
  /-- `X`, index register (R22). -/
  x : Byte
  /-- `Y`, index register (R22). -/
  y : Byte
  /-- `SP`, the stack pointer (R23). -/
  sp : Byte
  /-- `PC`, the program counter (R24). -/
  pc : Addr
  /-- `P`, the status word (R25). -/
  p : Status
  /-- `RAM[0 .. 0x7FF]` (20_memory.md R54). -/
  ram : Memory
  /-- `PRG`, the cartridge's program bytes, never written (R60, R63). -/
  prg : Memory
  /-- `PRG_PAGES` (R60). -/
  prgPages : PrgPages
  /-- `CYC`, the cycle counter (R33). -/
  cyc : Nat
  /-- `REPORT`, oldest record first (R34). -/
  report : List Report
  /-- The peripheral transaction stream, oldest first (20_memory.md R58, R59). -/
  periph : List PeriphEvent
  /-- Whether the first `POWER_ON` has happened (60_exceptions.md R256). -/
  poweredOn : Bool
  deriving DecidableEq, Repr

/-- There is no fault: "A `STEP` always yields a next state" (00_scope.md R9). No constructor, so no step can end in one; this is
the hardware's own behaviour and no difference from it. -/
inductive Fault where
  deriving DecidableEq, Repr

/-- Why a command is refused. -/
inductive Refusal where
  /-- Raised by an arm of `exec` for an instruction with no meaning yet; no arm does. Safe: the run stops. -/
  | notModelled (mnemonic : String)
  /-- Raised by `step` before the first `POWER_ON` (70_reset_and_hazards.md R275). Safe: the run does not start. -/
  | stepBeforePowerOn
  /-- Raised by `launch` when `PRG_PAGES` is not 1 or 2 or `PRG` has the wrong length (20_memory.md R60). Safe: the run does not start. -/
  | badCartridge
  deriving DecidableEq, Repr

/-- What a command answers. -/
abbrev Result := Host.Outcome State Fault Refusal

/-! ## Named updates, one for each field (the primitives of 00_scope.md R8) -/

def State.setA (s : State) (v : Byte) : State := { s with a := v }
def State.setX (s : State) (v : Byte) : State := { s with x := v }
def State.setY (s : State) (v : Byte) : State := { s with y := v }
def State.setSp (s : State) (v : Byte) : State := { s with sp := v }
def State.setPc (s : State) (v : Addr) : State := { s with pc := v }
def State.setP (s : State) (v : Status) : State := { s with p := v }
def State.setRam (s : State) (m : Memory) : State := { s with ram := m }
def State.setPrg (s : State) (m : Memory) : State := { s with prg := m }
def State.setCyc (s : State) (n : Nat) : State := { s with cyc := n }
def State.setPoweredOn (s : State) (v : Bool) : State := { s with poweredOn := v }

/-- `raise K(info)`: append a record and continue (R8, 60_exceptions.md R241). -/
def State.raise (s : State) (r : Report) : State := { s with report := s.report ++ [r] }

/-- Append a transaction to the peripheral stream (R58, R59). -/
def State.transact (s : State) (e : PeriphEvent) : State := { s with periph := s.periph ++ [e] }

/-- The status word after `POWER_ON`, byte image 0x34 (R36, 70_reset_and_hazards.md R270). -/
def Status.reset : Status :=
  { c := false, z := false, i := true, d := false, b := true, v := false, n := false }

/-- The machine right after `POWER_ON` (R36), with a blank one-page cartridge and zeroed RAM (entries 2 and 3). The reset vector
of a blank cartridge is 0x0000. -/
def State.reset : State :=
  { a := 0x00, x := 0x00, y := 0x00, sp := 0xFD, pc := 0x0000, p := Status.reset
    ram := [], prg := [], prgPages := .one
    cyc := Config.cycInit, report := [], periph := [], poweredOn := true }

end Sys2Proof.Machine
end

