-- ==== Sys2Proof/Machine/Memory.lean ====
section
/-! DEFINITION. Reading and writing a store of bytes, and its canonical form. -/

namespace Sys2Proof.Machine

/-- What an index that a store does not list reads as: 0x00 (DESIGN CHOICE, entry 2). -/
def Memory.blank : Byte := 0x00

/-- The byte at an index. -/
def Memory.read : Memory → Nat → Byte
  | [], _ => Memory.blank
  | (j, v) :: rest, k => if k = j then v else Memory.read rest k

/-- A byte put in front of a store's cells unless it is what an unlisted index reads as. -/
def Memory.cons (k : Nat) (v : Byte) (m : Memory) : Memory :=
  if v = Memory.blank then m else (k, v) :: m

/-- Store a byte at an index, keeping the canonical form. -/
def Memory.write : Memory → Nat → Byte → Memory
  | [], k, v => Memory.cons k v []
  | (j, u) :: rest, k, v =>
    if k < j then Memory.cons k v ((j, u) :: rest)
    else if k = j then Memory.cons k v rest
    else (j, u) :: Memory.write rest k v

/-- The canonical form of cells whose indices start at `lo`: strictly rising, none blank. -/
def Memory.wfFrom : Nat → Memory → Bool
  | _, [] => true
  | lo, (k, v) :: rest => decide (lo ≤ k) && decide (v ≠ Memory.blank) && Memory.wfFrom (k + 1) rest

/-- The canonical form. -/
def Memory.wf (m : Memory) : Bool := Memory.wfFrom 0 m

/-- Every listed index is below `n`. -/
def Memory.below (n : Nat) (m : Memory) : Bool := m.all fun c => decide (c.1 < n)

/-- The store that holds a list of bytes from index `k` on. -/
def Memory.ofBytes : Nat → List Byte → Memory
  | _, [] => []
  | k, v :: rest => Memory.cons k v (Memory.ofBytes (k + 1) rest)

end Sys2Proof.Machine
end

