-- ==== Sys2Proof/Machine/Bus.lean ====
section
/-! DEFINITION. The bus dispatcher and the minimal mapper (20_memory.md R51 to R63). -/

namespace Sys2Proof.Machine

/-- `UNHANDLED_READ_VALUE` (R56, the spec's decision D15). -/
def unhandledReadValue : Byte := 0x00

/-- Where the dispatcher sends an address (R51). -/
inductive Handler where
  /-- A cell of RAM (R54). -/
  | ram (cell : Nat)
  /-- A peripheral register (R55, R57). -/
  | periph (reg : PeriphReg)
  /-- 0x4018 to 0x401F (R56). -/
  | unhandled
  /-- 0x4020 to 0xFFFF (R60). -/
  | mapper
  deriving DecidableEq, Repr

/-- The address map: every address has exactly one handler (R51). -/
def route (a : Addr) : Handler :=
  if a.toNat ≤ 0x1FFF then .ram (a.toNat % 0x800)
  else if a.toNat ≤ 0x3FFF then .periph (.g (Fin.ofNat 8 (a.toNat % 8)))
  else if a.toNat = 0x4014 then .periph .dma
  else if a.toNat ≤ 0x4017 then .periph (.io (Fin.ofNat 24 (a.toNat - 0x4000)))
  else if a.toNat ≤ 0x401F then .unhandled
  else .mapper

/-- The byte of `PRG` the mapper shows at an address, none below 0x8000 (R61, R62). -/
def prgIndex (pages : PrgPages) (a : Addr) : Option Nat :=
  if a.toNat < 0x8000 then none
  else if a.toNat ≤ 0xBFFF then some (a.toNat % 0x8000)
  else match pages with
    | .one => some (a.toNat % 0x4000)
    | .two => some (a.toNat % 0x8000)

/-- `PeriphRead(reg)` (R58): the oracle's byte; the transaction is recorded. -/
def periphRead (reg : PeriphReg) (s : State) : Byte × State :=
  (Config.periphOracle (s.periph ++ [.read reg]) reg, s.transact (.read reg))

/-- A read that no handler answers (R56, R62). -/
def unhandledRead (a : Addr) (s : State) : Byte × State :=
  (unhandledReadValue, s.raise (.unhandledAddress a .read))

/-- `MapperRead(a)` (R61, R62). -/
def mapperRead (a : Addr) (s : State) : Byte × State :=
  match prgIndex s.prgPages a with
  | some k => (s.prg.read k, s)
  | none => unhandledRead a s

/-- `BusRead(a)` (R52): the byte and the state after the read's side effects. -/
def busRead (a : Addr) (s : State) : Byte × State :=
  match route a with
  | .ram cell => (s.ram.read cell, s)
  | .periph reg => periphRead reg s
  | .unhandled => unhandledRead a s
  | .mapper => mapperRead a s

/-- `BusWrite(a, v)` (R53). A mapper write is dropped and reported (R63). -/
def busWrite (a : Addr) (v : Byte) (s : State) : State :=
  match route a with
  | .ram cell => s.setRam (s.ram.write cell v)
  | .periph reg => s.transact (.write reg v)
  | .unhandled => s.raise (.unhandledAddress a .write)
  | .mapper => s.raise (.unsupportedWrite a v)

/-- `MemRead(a, 2)` (R66): low byte first, then the byte at `a + 1`, with a full 16-bit carry. -/
def memRead16 (a : Addr) (s : State) : Addr × State :=
  let lo := busRead a s
  let hi := busRead (a + 1) lo.2
  (word hi.1 lo.1, hi.2)

/-- The byte that memory (RAM or `PRG`) holds behind an address, none where no memory is. It has no side effect: no port does
this, it is how statements look at memory. -/
def State.peek (s : State) (a : Addr) : Option Byte :=
  match route a with
  | .ram cell => some (s.ram.read cell)
  | .mapper => (prgIndex s.prgPages a).map s.prg.read
  | .periph _ | .unhandled => none

end Sys2Proof.Machine
end

