-- ==== Sys2Proof/Machine/Flags.lean ====
section
/-! DEFINITION. The status word's byte image and loads (10_state.md R27 to R29), and every result and flag the ALU and the shifter compute
(42_arithmetic_logic.md R150, R158, R159; 43_shift_rotate.md R180). -/

namespace Sys2Proof.Machine

/-- `PByte(b4)` (R27): the byte image of the status word with bit 4 supplied by the caller and bit 5 set (R26). -/
def pByte (p : Status) (b4 : Bool) : Byte :=
  BitVec.ofBool p.n ++ BitVec.ofBool p.v ++ 1#1 ++ BitVec.ofBool b4 ++ BitVec.ofBool p.d ++ BitVec.ofBool p.i ++
    BitVec.ofBool p.z ++ BitVec.ofBool p.c

/-- `SetP(v, keepB)` (R28): load the flags from a byte; bit 5 is discarded (R26), bit 4 too where `keepB`. -/
def Status.load (p : Status) (v : Byte) (keepB : Bool) : Status :=
  { c := v.getLsbD 0, z := v.getLsbD 1, i := v.getLsbD 2, d := v.getLsbD 3
    b := if keepB then p.b else v.getLsbD 4
    v := v.getLsbD 6, n := v.getLsbD 7 }

/-- `SetZN(v)` on the status word (R29). -/
def Status.setZN (p : Status) (v : Byte) : Status :=
  { p with z := v == 0, n := v.getLsbD 7 }

/-- `SetZN(v)` (R29). -/
def State.setZN (s : State) (v : Byte) : State := s.setP (s.p.setZN v)

/-- What the adder produces. -/
structure Sum where
  /-- the result byte -/
  r : Byte
  /-- the carry out -/
  c : Bool
  /-- the signed overflow -/
  v : Bool
  deriving DecidableEq, Repr

/-- `AddC(a, b, cin)` (R150). -/
def addC (a b : Byte) (cin : Bool) : Sum :=
  let t := a.toNat + b.toNat + cin.toNat
  let r := BitVec.ofNat 8 t
  { r := r, c := t.testBit 8, v := (~~~(a ^^^ b) &&& (a ^^^ r) &&& 0x80) != 0 }

/-- The flags after `ADC` or `SBC` (R153, R154). -/
def Status.setSum (p : Status) (t : Sum) : Status :=
  ({ p with c := t.c, v := t.v }).setZN t.r

/-- `Compare(reg, m)` on the status word (R159). -/
def Status.compare (p : Status) (reg m : Byte) : Status :=
  let t := addC reg (m ^^^ 0xFF) true
  ({ p with c := t.c }).setZN t.r

/-- The flags of `BIT` (R158): `Z` from the and, `N` and `V` from the operand. -/
def Status.bitTest (p : Status) (a m : Byte) : Status :=
  { p with z := (a &&& m) == 0, n := m.getLsbD 7, v := m.getLsbD 6 }

/-- The four kinds of shift (R180). -/
inductive ShiftKind where
  | asl | lsr | rol | ror
  deriving DecidableEq, Repr

/-- `Shift(kind, v, cin)` (R180): the result byte and the bit shifted out. -/
def shift (kind : ShiftKind) (v : Byte) (cin : Bool) : Byte × Bool :=
  match kind with
  | .asl => (v <<< 1, v.getLsbD 7)
  | .lsr => (v >>> 1, v.getLsbD 0)
  | .rol => (v <<< 1 ||| (BitVec.ofBool cin).setWidth 8, v.getLsbD 7)
  | .ror => (v >>> 1 ||| (BitVec.ofBool cin).setWidth 8 <<< 7, v.getLsbD 0)

/-- The flags after a shift (R180). -/
def Status.setShift (p : Status) (q : Byte × Bool) : Status :=
  ({ p with c := q.2 }).setZN q.1

end Sys2Proof.Machine
end

