-- ==== Sys2Proof/Machine/Ops.lean ====
section
/-! DEFINITION. The named operations over memory and registers: the stack primitives (10_state.md R30, R31), the `BRK` trap entry and the
return from it (45_stack_flags_system.md R224, R225), and the fetch (30_encoding.md R91). -/

namespace Sys2Proof.Machine

/-- `Fetch8()` (R91): the byte at `PC` through the bus; `PC` advances. -/
def fetch8 (s : State) : Byte × State :=
  let r := busRead s.pc s
  (r.1, r.2.setPc (r.2.pc + 1))

/-- The bus address of the stack location a stack pointer names (R23). -/
def stackAddr (sp : Byte) : Addr := 0x0100 + zext16 sp

/-- `Push8(v)` (R30): write at `0x100 + SP`, then decrement `SP`. -/
def push8 (v : Byte) (s : State) : State :=
  let t := busWrite (stackAddr s.sp) v s
  t.setSp (t.sp - 1)

/-- `Pop8()` (R30): increment `SP`, then read at `0x100 + SP`. -/
def pop8 (s : State) : Byte × State :=
  let t := s.setSp (s.sp + 1)
  busRead (stackAddr t.sp) t

/-- `Push16(v)` (R31): high byte first. -/
def push16 (v : Addr) (s : State) : State :=
  push8 (lo8 v) (push8 (hi8 v) s)

/-- `Pop16()` (R31): low byte first. -/
def pop16 (s : State) : Addr × State :=
  let lo := pop8 s
  let hi := pop8 lo.2
  (word hi.1 lo.1, hi.2)

/-- The bus address of the interrupt vector (R224). -/
def interruptVector : Addr := 0xFFFE

/-- The bus address of the reset vector (70_reset_and_hazards.md R270). -/
def resetVector : Addr := 0xFFFC

/-- Taking the `BRK` trap (R224, 60_exceptions.md R247): push `PC`, set the stored break flag, push the status byte with bit 4
set, set interrupt-disable, load `PC` from the vector. -/
def enterTrap (s : State) : State :=
  let s1 := push16 s.pc s
  let s2 := s1.setP { s1.p with b := true }
  let s3 := push8 (pByte s2.p true) s2
  let s4 := s3.setP { s3.p with i := true }
  let target := memRead16 interruptVector s4
  target.2.setPc target.1

/-- Returning from the trap (R225, R248): all seven stored flags from the popped byte, then `PC`, with no adjustment. -/
def returnFromTrap (s : State) : State :=
  let status := pop8 s
  let s1 := status.2.setP (status.2.p.load status.1 false)
  let target := pop16 s1
  target.2.setPc target.1

end Sys2Proof.Machine
end

