-- ==== Sys2Proof/Syntax.lean ====
section
/-! DEFINITION. The instruction set as syntax: addressing modes (30_encoding.md R93), operand forms and the 57 instructions of
spec/opcode_table.json (56 mnemonics and the unimplemented opcode). A row of the table is one constructor of `Instr` with one of its
operand forms. -/

namespace Sys2Proof

/-- The thirteen addressing-mode tags (30_encoding.md R93). -/
inductive Mode where
  | imp | acc | imm | zp | zpx | zpy | rel | abs | absx | absy | ind | indx | indy
  deriving DecidableEq, Repr

/-- An operand form that yields an effective address, with its operand bytes (40_addressing_modes.md R114 to R123). -/
inductive EaMode where
  /-- `zp` (R114). -/
  | zp (b : Byte)
  /-- `zpx` (R115). -/
  | zpx (b : Byte)
  /-- `zpy` (R116). -/
  | zpy (b : Byte)
  /-- `abs` (R117). -/
  | abs (w : Addr)
  /-- `absx` (R118). -/
  | absx (w : Addr)
  /-- `absy` (R119). -/
  | absy (w : Addr)
  /-- `indx` (R121). -/
  | indx (b : Byte)
  /-- `indy` (R123). -/
  | indy (b : Byte)
  deriving DecidableEq, Repr

/-- The operand of an instruction that reads a byte: the byte after the opcode (`imm`, R113) or memory. -/
inductive Src where
  | imm (b : Byte)
  | mem (m : EaMode)
  deriving DecidableEq, Repr

/-- The operand of a shift or rotate: `A` (`acc`, R112) or memory (43_shift_rotate.md R180). -/
inductive ShiftOperand where
  | acc
  | mem (m : EaMode)
  deriving DecidableEq, Repr

/-- The operand of `JMP`: the target itself (`abs`, R117) or the address of a pointer to it (`ind`, R120). -/
inductive JmpOperand where
  | abs (w : Addr)
  | ind (w : Addr)
  deriving DecidableEq, Repr

/-- The instructions: one constructor for each mnemonic of spec/opcode_table.json (30_encoding.md R97, R98). -/
inductive Instr where
  -- 41_load_store_transfer.md
  | lda (o : Src)
  | ldx (o : Src)
  | ldy (o : Src)
  | sta (m : EaMode)
  | stx (m : EaMode)
  | sty (m : EaMode)
  | tax
  | tay
  | txa
  | tya
  | tsx
  | txs
  -- 42_arithmetic_logic.md
  | adc (o : Src)
  | sbc (o : Src)
  | and (o : Src)
  | ora (o : Src)
  | eor (o : Src)
  | bit (m : EaMode)
  | cmp (o : Src)
  | cpx (o : Src)
  | cpy (o : Src)
  | inc (m : EaMode)
  | dec (m : EaMode)
  | inx
  | iny
  | dex
  | dey
  -- 43_shift_rotate.md
  | asl (o : ShiftOperand)
  | lsr (o : ShiftOperand)
  | rol (o : ShiftOperand)
  | ror (o : ShiftOperand)
  -- 44_control_flow.md
  | jmp (o : JmpOperand)
  | jsr (target : Addr)
  | rts
  | bpl (off : Byte)
  | bmi (off : Byte)
  | bvc (off : Byte)
  | bvs (off : Byte)
  | bcc (off : Byte)
  | bcs (off : Byte)
  | bne (off : Byte)
  | beq (off : Byte)
  -- 45_stack_flags_system.md
  | pha
  | pla
  | php
  | plp
  | clc
  | sec
  | cli
  | sei
  | cld
  | sed
  | clv
  | nop
  | brk
  | rti
  /-- An opcode value with no instruction body (R98, R226). -/
  | unimpl (op : Byte)
  deriving DecidableEq, Repr

end Sys2Proof
end

