-- ==== Sys2Proof/Machine/Operands.lean ====
section
/-! DEFINITION. The addressing-mode resolvers (40_addressing_modes.md). The operand bytes have been fetched with the opcode and stand in
the instruction, so `PC` already is `P + L` here (R110). -/

namespace Sys2Proof.Machine

/-- `Resolve(mode)` for the modes that yield the address of an operand (R114 to R119, R121, R123): the effective address, and
the state after the pointer reads of the indirect modes. -/
def resolve (m : EaMode) (s : State) : Addr × State :=
  match m with
  | .zp b => (zext16 b, s)
  | .zpx b => (zext16 (b + s.x), s)
  | .zpy b => (zext16 (b + s.y), s)
  | .abs w => (w, s)
  | .absx w => (w + zext16 s.x, s)
  | .absy w => (w + zext16 s.y, s)
  | .indx b => memRead16 (zext16 (b + s.x)) s
  | .indy b =>
    let base := memRead16 (zext16 b) s
    (base.1 + zext16 base.2.y, base.2)

/-- The operand byte of an instruction that reads one: the immediate byte (R113), fetched with the opcode, or `MemRead(ea, 1)`. -/
def readOperand (o : Src) (s : State) : Byte × State :=
  match o with
  | .imm b => (b, s)
  | .mem m =>
    let ea := resolve m s
    busRead ea.1 ea.2

/-- The target of `JMP` (R117, R120, 44_control_flow.md R191). -/
def jumpTarget (o : JmpOperand) (s : State) : Addr × State :=
  match o with
  | .abs w => (w, s)
  | .ind w => memRead16 w s

/-- `Resolve(rel)` (R124): the target of a branch; `PC` is `P + 2` here. -/
def branchTarget (off : Byte) (s : State) : Addr := s.pc + sext16 off

end Sys2Proof.Machine
end

