-- ==== Sys2Proof/Machine/Arithmetic.lean ====
section
/-! DEFINITION. Arithmetic, logic, compare, increment and decrement instructions (42_arithmetic_logic.md). The decimal flag is read by
none of them (R152). -/

namespace Sys2Proof.Machine

/-- `ADC` (R153): `A + m + C` through the adder. -/
def execAdc (o : Src) (s : State) : Result :=
  let q := readOperand o s
  let t := addC q.2.a q.1 q.2.p.c
  .next ((q.2.setA t.r).setP (q.2.p.setSum t))

/-- `SBC` (R154): the adder with the operand byte inverted. -/
def execSbc (o : Src) (s : State) : Result :=
  let q := readOperand o s
  let t := addC q.2.a (q.1 ^^^ 0xFF) q.2.p.c
  .next ((q.2.setA t.r).setP (q.2.p.setSum t))

/-- `AND` (R155): `A <- A & MemRead(ea, 1); SetZN(A)`. -/
def execAnd (o : Src) (s : State) : Result :=
  let q := readOperand o s
  let r := q.2.a &&& q.1
  .next ((q.2.setA r).setZN r)

/-- `ORA` (R156): `A <- A | MemRead(ea, 1); SetZN(A)`. -/
def execOra (o : Src) (s : State) : Result :=
  let q := readOperand o s
  let r := q.2.a ||| q.1
  .next ((q.2.setA r).setZN r)

/-- `EOR` (R157): `A <- A ^ MemRead(ea, 1); SetZN(A)`. -/
def execEor (o : Src) (s : State) : Result :=
  let q := readOperand o s
  let r := q.2.a ^^^ q.1
  .next ((q.2.setA r).setZN r)

/-- `BIT` (R158): `Z` from `A & m`, `N` and `V` from `m`. -/
def execBit (m : EaMode) (s : State) : Result :=
  let q := readOperand (.mem m) s
  .next (q.2.setP (q.2.p.bitTest q.2.a q.1))

/-- `CMP` (R160): `Compare(A, MemRead(ea, 1))`. -/
def execCmp (o : Src) (s : State) : Result :=
  let q := readOperand o s
  .next (q.2.setP (q.2.p.compare q.2.a q.1))

/-- `CPX` (R161): `Compare(X, MemRead(ea, 1))`. -/
def execCpx (o : Src) (s : State) : Result :=
  let q := readOperand o s
  .next (q.2.setP (q.2.p.compare q.2.x q.1))

/-- `CPY` (R162): `Compare(Y, MemRead(ea, 1))`. -/
def execCpy (o : Src) (s : State) : Result :=
  let q := readOperand o s
  .next (q.2.setP (q.2.p.compare q.2.y q.1))

/-- `INC` (R163): one read, then one write of `ea`; `SetZN` of the byte written. -/
def execInc (m : EaMode) (s : State) : Result :=
  let ea := resolve m s
  let q := busRead ea.1 ea.2
  let v := q.1 + 1
  .next ((busWrite ea.1 v q.2).setZN v)

/-- `DEC` (R164): one read, then one write of `ea`; `SetZN` of the byte written. -/
def execDec (m : EaMode) (s : State) : Result :=
  let ea := resolve m s
  let q := busRead ea.1 ea.2
  let v := q.1 - 1
  .next ((busWrite ea.1 v q.2).setZN v)

/-- `INX` (R165): `X <- (X + 1) mod 0x100; SetZN(X)`. -/
def execInx (s : State) : Result :=
  .next ((s.setX (s.x + 1)).setZN (s.x + 1))

/-- `INY` (R166): `Y <- (Y + 1) mod 0x100; SetZN(Y)`. -/
def execIny (s : State) : Result :=
  .next ((s.setY (s.y + 1)).setZN (s.y + 1))

/-- `DEX` (R167): `X <- (X - 1) mod 0x100; SetZN(X)`. -/
def execDex (s : State) : Result :=
  .next ((s.setX (s.x - 1)).setZN (s.x - 1))

/-- `DEY` (R168): `Y <- (Y - 1) mod 0x100; SetZN(Y)`. -/
def execDey (s : State) : Result :=
  .next ((s.setY (s.y - 1)).setZN (s.y - 1))

end Sys2Proof.Machine
end

