-- ==== Sys2Proof/Machine/Control.lean ====
section
/-! DEFINITION. Jumps, subroutine call and return, conditional branches (44_control_flow.md). -/

namespace Sys2Proof.Machine

/-- `JMP` (R191): `pc <- ea`; no access at `ea`. -/
def execJmp (o : JmpOperand) (s : State) : Result :=
  let ea := jumpTarget o s
  .next (ea.2.setPc ea.1)

/-- `JSR` (R192): push the return address minus 1, high byte first, then jump. -/
def execJsr (target : Addr) (s : State) : Result :=
  .next ((push16 (s.pc - 1) s).setPc target)

/-- `RTS` (R193): pop and add 1. -/
def execRts (s : State) : Result :=
  let q := pop16 s
  .next (q.2.setPc (q.1 + 1))

/-- The one branch body (R196). -/
def branch (cond : Bool) (off : Byte) (s : State) : State :=
  if cond then s.setPc (branchTarget off s) else s

/-- `BPL` (R197): taken iff `P.N == 0`. -/
def execBpl (off : Byte) (s : State) : Result :=
  .next (branch (!s.p.n) off s)

/-- `BMI` (R198): taken iff `P.N == 1`. -/
def execBmi (off : Byte) (s : State) : Result :=
  .next (branch (s.p.n) off s)

/-- `BVC` (R199): taken iff `P.V == 0`. -/
def execBvc (off : Byte) (s : State) : Result :=
  .next (branch (!s.p.v) off s)

/-- `BVS` (R200): taken iff `P.V == 1`. -/
def execBvs (off : Byte) (s : State) : Result :=
  .next (branch (s.p.v) off s)

/-- `BCC` (R201): taken iff `P.C == 0`. -/
def execBcc (off : Byte) (s : State) : Result :=
  .next (branch (!s.p.c) off s)

/-- `BCS` (R202): taken iff `P.C == 1`. -/
def execBcs (off : Byte) (s : State) : Result :=
  .next (branch (s.p.c) off s)

/-- `BNE` (R203): taken iff `P.Z == 0`. -/
def execBne (off : Byte) (s : State) : Result :=
  .next (branch (!s.p.z) off s)

/-- `BEQ` (R204): taken iff `P.Z == 1`. -/
def execBeq (off : Byte) (s : State) : Result :=
  .next (branch (s.p.z) off s)

end Sys2Proof.Machine
end

