-- ==== Sys2Proof/Machine/LoadStore.lean ====
section
/-! DEFINITION. Load, store and register-transfer instructions (41_load_store_transfer.md). -/

namespace Sys2Proof.Machine

/-- `LDA` (R130): `A <- MemRead(ea, 1); SetZN(A)`. -/
def execLda (o : Src) (s : State) : Result :=
  let q := readOperand o s
  .next ((q.2.setA q.1).setZN q.1)

/-- `LDX` (R131): `X <- MemRead(ea, 1); SetZN(X)`. -/
def execLdx (o : Src) (s : State) : Result :=
  let q := readOperand o s
  .next ((q.2.setX q.1).setZN q.1)

/-- `LDY` (R132): `Y <- MemRead(ea, 1); SetZN(Y)`. -/
def execLdy (o : Src) (s : State) : Result :=
  let q := readOperand o s
  .next ((q.2.setY q.1).setZN q.1)

/-- `STA` (R133): `MemWrite(ea, 1, A)`. -/
def execSta (m : EaMode) (s : State) : Result :=
  let ea := resolve m s
  .next (busWrite ea.1 ea.2.a ea.2)

/-- `STX` (R134): `MemWrite(ea, 1, X)`. -/
def execStx (m : EaMode) (s : State) : Result :=
  let ea := resolve m s
  .next (busWrite ea.1 ea.2.x ea.2)

/-- `STY` (R135): `MemWrite(ea, 1, Y)`. -/
def execSty (m : EaMode) (s : State) : Result :=
  let ea := resolve m s
  .next (busWrite ea.1 ea.2.y ea.2)

/-- `TAX` (R136): `X <- A; SetZN(X)`. -/
def execTax (s : State) : Result :=
  .next ((s.setX s.a).setZN s.a)

/-- `TAY` (R137): `Y <- A; SetZN(Y)`. -/
def execTay (s : State) : Result :=
  .next ((s.setY s.a).setZN s.a)

/-- `TXA` (R138): `A <- X; SetZN(A)`. -/
def execTxa (s : State) : Result :=
  .next ((s.setA s.x).setZN s.x)

/-- `TYA` (R139): `A <- Y; SetZN(A)`. -/
def execTya (s : State) : Result :=
  .next ((s.setA s.y).setZN s.y)

/-- `TSX` (R140): `X <- SP; SetZN(X)`. -/
def execTsx (s : State) : Result :=
  .next ((s.setX s.sp).setZN s.sp)

/-- `TXS` (R141): `SP <- X`; the one transfer that writes no flag. -/
def execTxs (s : State) : Result :=
  .next (s.setSp s.x)

end Sys2Proof.Machine
end

