-- ==== Sys2Proof/Machine/Shift.lean ====
section
/-! DEFINITION. Shift and rotate instructions (43_shift_rotate.md). -/

namespace Sys2Proof.Machine

/-- `ShiftInstr(kind, mode)` (R180): on `A`, or one read and then one write of `ea`. -/
def shiftInstr (kind : ShiftKind) (o : ShiftOperand) (s : State) : State :=
  match o with
  | .acc =>
    let q := shift kind s.a s.p.c
    (s.setP (s.p.setShift q)).setA q.1
  | .mem m =>
    let ea := resolve m s
    let v := busRead ea.1 ea.2
    let q := shift kind v.1 v.2.p.c
    busWrite ea.1 q.1 (v.2.setP (v.2.p.setShift q))

/-- `ASL` (R181). -/
def execAsl (o : ShiftOperand) (s : State) : Result :=
  .next (shiftInstr .asl o s)

/-- `LSR` (R182). -/
def execLsr (o : ShiftOperand) (s : State) : Result :=
  .next (shiftInstr .lsr o s)

/-- `ROL` (R183). -/
def execRol (o : ShiftOperand) (s : State) : Result :=
  .next (shiftInstr .rol o s)

/-- `ROR` (R184). -/
def execRor (o : ShiftOperand) (s : State) : Result :=
  .next (shiftInstr .ror o s)

end Sys2Proof.Machine
end

