-- ==== Sys2Proof/Machine/System.lean ====
section
/-! DEFINITION. Stack, flag and system instructions and the unimplemented opcodes (45_stack_flags_system.md). -/

namespace Sys2Proof.Machine

/-- `PHA` (R210): `Push8(A)`. -/
def execPha (s : State) : Result :=
  .next (push8 s.a s)

/-- `PLA` (R211): `A <- Pop8(); SetZN(A)`. -/
def execPla (s : State) : Result :=
  let q := pop8 s
  .next ((q.2.setA q.1).setZN q.1)

/-- `PHP` (R212): `Push8(PByte(1))`; the stored break flag is not changed. -/
def execPhp (s : State) : Result :=
  .next (push8 (pByte s.p true) s)

/-- `PLP_B_POLICY = keep` (R213, the spec's decision D11): `PLP` leaves the stored break flag as it was. -/
def plpKeepsB : Bool := true

/-- `PLP` (R213): `SetP(Pop8(), keepB = true)`. -/
def execPlp (s : State) : Result :=
  let q := pop8 s
  .next (q.2.setP (q.2.p.load q.1 plpKeepsB))

/-- `CLC` (R214): `P.C <- 0`. -/
def execClc (s : State) : Result :=
  .next (s.setP { s.p with c := false })

/-- `SEC` (R215): `P.C <- 1`. -/
def execSec (s : State) : Result :=
  .next (s.setP { s.p with c := true })

/-- `CLI` (R216): `P.I <- 0`. -/
def execCli (s : State) : Result :=
  .next (s.setP { s.p with i := false })

/-- `SEI` (R217): `P.I <- 1`. -/
def execSei (s : State) : Result :=
  .next (s.setP { s.p with i := true })

/-- `CLD` (R218): `P.D <- 0`. -/
def execCld (s : State) : Result :=
  .next (s.setP { s.p with d := false })

/-- `SED` (R219): `P.D <- 1`. -/
def execSed (s : State) : Result :=
  .next (s.setP { s.p with d := true })

/-- `CLV` (R220): `P.V <- 0`. -/
def execClv (s : State) : Result :=
  .next (s.setP { s.p with v := false })

/-- `NOP` (R221): nothing. -/
def execNop (s : State) : Result :=
  .next s

/-- `BRK` (R224): take the trap. No padding byte is fetched, so the pushed `PC` is `P + 1`. -/
def execBrk (s : State) : Result :=
  .next (enterTrap s)

/-- `RTI` (R225): return from the trap. -/
def execRti (s : State) : Result :=
  .next (returnFromTrap s)

/-- `UNIMPL` (R226): a report and nothing else. -/
def execUnimpl (op : Byte) (s : State) : Result :=
  .next (s.raise (.unsupportedOpcode op))

end Sys2Proof.Machine
end

