-- ==== Sys2Proof/WellFormed.lean ====
section
/-! DEFINITION. Which terms of `Instr` are instructions of the hardware: the modes each instruction has, from its own rule ("Operands:"
line, R130 to R225), and the 105 unimplemented opcode values (30_encoding.md R98). -/

namespace Sys2Proof

/-- The mode tag of an operand form. -/
def EaMode.mode : EaMode → Mode
  | .zp _ => .zp
  | .zpx _ => .zpx
  | .zpy _ => .zpy
  | .abs _ => .abs
  | .absx _ => .absx
  | .absy _ => .absy
  | .indx _ => .indx
  | .indy _ => .indy

def Src.mode : Src → Mode
  | .imm _ => .imm
  | .mem m => m.mode

def ShiftOperand.mode : ShiftOperand → Mode
  | .acc => .acc
  | .mem m => m.mode

def JmpOperand.mode : JmpOperand → Mode
  | .abs _ => .abs
  | .ind _ => .ind

/-- The modes of `LDA ADC SBC AND ORA EOR CMP` (R130, R153 to R157, R160). -/
def accumulatorSources : List Mode := [.imm, .zp, .zpx, .abs, .absx, .absy, .indx, .indy]

/-- The modes of the read-modify-write instructions on memory (R163, R164, R181 to R184). -/
def rmwModes : List Mode := [.zp, .zpx, .abs, .absx]

/-- The 105 opcode values with no instruction body, as R98 lists them. -/
def unimplementedOpcodes : List Byte :=
  [0x02, 0x03, 0x04, 0x07, 0x0B, 0x0C, 0x0F, 0x12, 0x13, 0x14, 0x17, 0x1A, 0x1B, 0x1C, 0x1F, 0x22, 0x23] ++
  [0x27, 0x2B, 0x2F, 0x32, 0x33, 0x34, 0x37, 0x3A, 0x3B, 0x3C, 0x3F, 0x42, 0x43, 0x44, 0x47, 0x4B, 0x4F] ++
  [0x52, 0x53, 0x54, 0x57, 0x5A, 0x5B, 0x5C, 0x5F, 0x62, 0x63, 0x64, 0x67, 0x6B, 0x6F, 0x72, 0x73, 0x74] ++
  [0x77, 0x7A, 0x7B, 0x7C, 0x7F, 0x80, 0x82, 0x83, 0x87, 0x89, 0x8B, 0x8F, 0x92, 0x93, 0x97, 0x9B, 0x9C] ++
  [0x9E, 0x9F, 0xA3, 0xA7, 0xAB, 0xAF, 0xB2, 0xB3, 0xB7, 0xBB, 0xBF, 0xC2, 0xC3, 0xC7, 0xCB, 0xCF, 0xD2] ++
  [0xD3, 0xD4, 0xD7, 0xDA, 0xDB, 0xDC, 0xDF, 0xE2, 0xE3, 0xE7, 0xEB, 0xEF, 0xF2, 0xF3, 0xF4, 0xF7, 0xFA] ++
  [0xFB, 0xFC, 0xFF]

/-- An instruction has a form the hardware encodes. -/
def Instr.wf : Instr → Bool
  | .lda o => accumulatorSources.contains o.mode
  | .ldx o => [Mode.imm, .zp, .zpy, .abs, .absy].contains o.mode
  | .ldy o => [Mode.imm, .zp, .zpx, .abs, .absx].contains o.mode
  | .sta m => [Mode.zp, .zpx, .abs, .absx, .absy, .indx, .indy].contains m.mode
  | .stx m => [Mode.zp, .zpy, .abs].contains m.mode
  | .sty m => [Mode.zp, .zpx, .abs].contains m.mode
  | .adc o => accumulatorSources.contains o.mode
  | .sbc o => accumulatorSources.contains o.mode
  | .and o => accumulatorSources.contains o.mode
  | .ora o => accumulatorSources.contains o.mode
  | .eor o => accumulatorSources.contains o.mode
  | .bit m => [Mode.zp, .abs].contains m.mode
  | .cmp o => accumulatorSources.contains o.mode
  | .cpx o => [Mode.imm, .zp, .abs].contains o.mode
  | .cpy o => [Mode.imm, .zp, .abs].contains o.mode
  | .inc m => rmwModes.contains m.mode
  | .dec m => rmwModes.contains m.mode
  | .asl o => (Mode.acc :: rmwModes).contains o.mode
  | .lsr o => (Mode.acc :: rmwModes).contains o.mode
  | .rol o => (Mode.acc :: rmwModes).contains o.mode
  | .ror o => (Mode.acc :: rmwModes).contains o.mode
  | .unimpl op => unimplementedOpcodes.contains op
  | .jmp _ | .jsr _ | .rts => true
  | .bpl _ | .bmi _ | .bvc _ | .bvs _ | .bcc _ | .bcs _ | .bne _ | .beq _ => true
  | .tax | .tay | .txa | .tya | .tsx | .txs | .inx | .iny | .dex | .dey => true
  | .pha | .pla | .php | .plp | .clc | .sec | .cli | .sei | .cld | .sed | .clv => true
  | .nop | .brk | .rti => true

end Sys2Proof
end

