-- ==== Sys2Proof/Decode.lean ====
section
/-! DEFINITION. The decoder, a lookup of the opcode byte in the 256-entry map of 30_encoding.md R96, total on any bytes (R100), and after
it the encoder, written from the encoding table of each instruction's own rule (R130 to R226). -/

namespace Sys2Proof

/-- The instruction kinds, the 56 mnemonics of R97 (the second tag of R95's pair). -/
inductive Mnemonic where
  | lda | ldx | ldy | sta | stx | sty | tax | tay | txa | tya | tsx | txs | adc | sbc | and | ora | eor | bit | cmp | cpx | cpy
  | inc | dec | inx | iny | dex | dey | asl | lsr | rol | ror | jmp | jsr | rts | bpl | bmi | bvc | bvs | bcc | bcs | bne | beq
  | pha | pla | php | plp | clc | sec | cli | sei | cld | sed | clv | nop | brk | rti
  deriving DecidableEq, Repr

/-- Row 0x of the map. -/
def opcodeRow0 : List (Option (Mnemonic × Mode)) :=
  [some (.brk, .imp), some (.ora, .indx), none, none, none, some (.ora, .zp), some (.asl, .zp), none,
   some (.php, .imp), some (.ora, .imm), some (.asl, .acc), none, none, some (.ora, .abs), some (.asl, .abs), none]

/-- Row 1x of the map. -/
def opcodeRow1 : List (Option (Mnemonic × Mode)) :=
  [some (.bpl, .rel), some (.ora, .indy), none, none, none, some (.ora, .zpx), some (.asl, .zpx), none,
   some (.clc, .imp), some (.ora, .absy), none, none, none, some (.ora, .absx), some (.asl, .absx), none]

/-- Row 2x of the map. -/
def opcodeRow2 : List (Option (Mnemonic × Mode)) :=
  [some (.jsr, .abs), some (.and, .indx), none, none, some (.bit, .zp), some (.and, .zp), some (.rol, .zp), none,
   some (.plp, .imp), some (.and, .imm), some (.rol, .acc), none, some (.bit, .abs), some (.and, .abs), some (.rol, .abs), none]

/-- Row 3x of the map. -/
def opcodeRow3 : List (Option (Mnemonic × Mode)) :=
  [some (.bmi, .rel), some (.and, .indy), none, none, none, some (.and, .zpx), some (.rol, .zpx), none,
   some (.sec, .imp), some (.and, .absy), none, none, none, some (.and, .absx), some (.rol, .absx), none]

/-- Row 4x of the map. -/
def opcodeRow4 : List (Option (Mnemonic × Mode)) :=
  [some (.rti, .imp), some (.eor, .indx), none, none, none, some (.eor, .zp), some (.lsr, .zp), none,
   some (.pha, .imp), some (.eor, .imm), some (.lsr, .acc), none, some (.jmp, .abs), some (.eor, .abs), some (.lsr, .abs), none]

/-- Row 5x of the map. -/
def opcodeRow5 : List (Option (Mnemonic × Mode)) :=
  [some (.bvc, .rel), some (.eor, .indy), none, none, none, some (.eor, .zpx), some (.lsr, .zpx), none,
   some (.cli, .imp), some (.eor, .absy), none, none, none, some (.eor, .absx), some (.lsr, .absx), none]

/-- Row 6x of the map. -/
def opcodeRow6 : List (Option (Mnemonic × Mode)) :=
  [some (.rts, .imp), some (.adc, .indx), none, none, none, some (.adc, .zp), some (.ror, .zp), none,
   some (.pla, .imp), some (.adc, .imm), some (.ror, .acc), none, some (.jmp, .ind), some (.adc, .abs), some (.ror, .abs), none]

/-- Row 7x of the map. -/
def opcodeRow7 : List (Option (Mnemonic × Mode)) :=
  [some (.bvs, .rel), some (.adc, .indy), none, none, none, some (.adc, .zpx), some (.ror, .zpx), none,
   some (.sei, .imp), some (.adc, .absy), none, none, none, some (.adc, .absx), some (.ror, .absx), none]

/-- Row 8x of the map. -/
def opcodeRow8 : List (Option (Mnemonic × Mode)) :=
  [none, some (.sta, .indx), none, none, some (.sty, .zp), some (.sta, .zp), some (.stx, .zp), none,
   some (.dey, .imp), none, some (.txa, .imp), none, some (.sty, .abs), some (.sta, .abs), some (.stx, .abs), none]

/-- Row 9x of the map. -/
def opcodeRow9 : List (Option (Mnemonic × Mode)) :=
  [some (.bcc, .rel), some (.sta, .indy), none, none, some (.sty, .zpx), some (.sta, .zpx), some (.stx, .zpy), none,
   some (.tya, .imp), some (.sta, .absy), some (.txs, .imp), none, none, some (.sta, .absx), none, none]

/-- Row Ax of the map. -/
def opcodeRowA : List (Option (Mnemonic × Mode)) :=
  [some (.ldy, .imm), some (.lda, .indx), some (.ldx, .imm), none, some (.ldy, .zp), some (.lda, .zp), some (.ldx, .zp), none,
   some (.tay, .imp), some (.lda, .imm), some (.tax, .imp), none, some (.ldy, .abs), some (.lda, .abs), some (.ldx, .abs), none]

/-- Row Bx of the map. -/
def opcodeRowB : List (Option (Mnemonic × Mode)) :=
  [some (.bcs, .rel), some (.lda, .indy), none, none, some (.ldy, .zpx), some (.lda, .zpx), some (.ldx, .zpy), none,
   some (.clv, .imp), some (.lda, .absy), some (.tsx, .imp), none, some (.ldy, .absx), some (.lda, .absx), some (.ldx, .absy), none]

/-- Row Cx of the map. -/
def opcodeRowC : List (Option (Mnemonic × Mode)) :=
  [some (.cpy, .imm), some (.cmp, .indx), none, none, some (.cpy, .zp), some (.cmp, .zp), some (.dec, .zp), none,
   some (.iny, .imp), some (.cmp, .imm), some (.dex, .imp), none, some (.cpy, .abs), some (.cmp, .abs), some (.dec, .abs), none]

/-- Row Dx of the map. -/
def opcodeRowD : List (Option (Mnemonic × Mode)) :=
  [some (.bne, .rel), some (.cmp, .indy), none, none, none, some (.cmp, .zpx), some (.dec, .zpx), none,
   some (.cld, .imp), some (.cmp, .absy), none, none, none, some (.cmp, .absx), some (.dec, .absx), none]

/-- Row Ex of the map. -/
def opcodeRowE : List (Option (Mnemonic × Mode)) :=
  [some (.cpx, .imm), some (.sbc, .indx), none, none, some (.cpx, .zp), some (.sbc, .zp), some (.inc, .zp), none,
   some (.inx, .imp), some (.sbc, .imm), some (.nop, .imp), none, some (.cpx, .abs), some (.sbc, .abs), some (.inc, .abs), none]

/-- Row Fx of the map. -/
def opcodeRowF : List (Option (Mnemonic × Mode)) :=
  [some (.beq, .rel), some (.sbc, .indy), none, none, none, some (.sbc, .zpx), some (.inc, .zpx), none,
   some (.sed, .imp), some (.sbc, .absy), none, none, none, some (.sbc, .absx), some (.inc, .absx), none]

/-- The map of R96: sixteen rows by high nibble, sixteen columns by low nibble; `none` is an unimplemented value (R98). -/
def opcodeMap : List (List (Option (Mnemonic × Mode))) :=
  [opcodeRow0, opcodeRow1, opcodeRow2, opcodeRow3, opcodeRow4, opcodeRow5, opcodeRow6, opcodeRow7] ++
  [opcodeRow8, opcodeRow9, opcodeRowA, opcodeRowB, opcodeRowC, opcodeRowD, opcodeRowE, opcodeRowF]

/-- `DISPATCH[op]` (R95): the pair of tags of an opcode value, `none` where it has no instruction body. -/
def dispatch (op : Byte) : Option (Mnemonic × Mode) :=
  (opcodeMap.getD (op.toNat / 16) []).getD (op.toNat % 16) none

/-- How many operand bytes a mode's resolver fetches (R93). -/
def Mode.operandCount : Mode → Nat
  | .imp | .acc => 0
  | .imm | .zp | .zpx | .zpy | .rel | .indx | .indy => 1
  | .abs | .absx | .absy | .ind => 2

/-- How many operand bytes follow an opcode byte; an unimplemented one has none (R93, R226). -/
def operandCount (op : Byte) : Nat :=
  match dispatch op with
  | none => 0
  | some (_, mode) => mode.operandCount

/-- Operand assembly (R94) for the modes that yield an effective address; the byte fetched first is the low one. -/
def eaOperand (mode : Mode) (b1 b2 : Byte) : Option EaMode :=
  match mode with
  | .zp => some (.zp b1)
  | .zpx => some (.zpx b1)
  | .zpy => some (.zpy b1)
  | .abs => some (.abs (word b2 b1))
  | .absx => some (.absx (word b2 b1))
  | .absy => some (.absy (word b2 b1))
  | .indx => some (.indx b1)
  | .indy => some (.indy b1)
  | .imp | .acc | .imm | .rel | .ind => none

/-- Operand assembly for the instructions that read a byte. -/
def srcOperand (mode : Mode) (b1 b2 : Byte) : Option Src :=
  if mode = .imm then some (.imm b1) else (eaOperand mode b1 b2).map .mem

/-- Operand assembly for the shifts and rotates. -/
def shiftOperand (mode : Mode) (b1 b2 : Byte) : Option ShiftOperand :=
  if mode = .acc then some .acc else (eaOperand mode b1 b2).map .mem

/-- Operand assembly for `JMP`. -/
def jmpOperand (mode : Mode) (b1 b2 : Byte) : Option JmpOperand :=
  match mode with
  | .abs => some (.abs (word b2 b1))
  | .ind => some (.ind (word b2 b1))
  | _ => none

/-- The instruction that a pair of tags and its operand bytes stand for; `none` for a pair that is no instruction. -/
def assemble (k : Mnemonic) (mode : Mode) (b1 b2 : Byte) : Option Instr :=
  match k with
  | .lda => (srcOperand mode b1 b2).map .lda
  | .ldx => (srcOperand mode b1 b2).map .ldx
  | .ldy => (srcOperand mode b1 b2).map .ldy
  | .sta => (eaOperand mode b1 b2).map .sta
  | .stx => (eaOperand mode b1 b2).map .stx
  | .sty => (eaOperand mode b1 b2).map .sty
  | .tax => some .tax
  | .tay => some .tay
  | .txa => some .txa
  | .tya => some .tya
  | .tsx => some .tsx
  | .txs => some .txs
  | .adc => (srcOperand mode b1 b2).map .adc
  | .sbc => (srcOperand mode b1 b2).map .sbc
  | .and => (srcOperand mode b1 b2).map .and
  | .ora => (srcOperand mode b1 b2).map .ora
  | .eor => (srcOperand mode b1 b2).map .eor
  | .bit => (eaOperand mode b1 b2).map .bit
  | .cmp => (srcOperand mode b1 b2).map .cmp
  | .cpx => (srcOperand mode b1 b2).map .cpx
  | .cpy => (srcOperand mode b1 b2).map .cpy
  | .inc => (eaOperand mode b1 b2).map .inc
  | .dec => (eaOperand mode b1 b2).map .dec
  | .inx => some .inx
  | .iny => some .iny
  | .dex => some .dex
  | .dey => some .dey
  | .asl => (shiftOperand mode b1 b2).map .asl
  | .lsr => (shiftOperand mode b1 b2).map .lsr
  | .rol => (shiftOperand mode b1 b2).map .rol
  | .ror => (shiftOperand mode b1 b2).map .ror
  | .jmp => (jmpOperand mode b1 b2).map .jmp
  | .jsr => some (.jsr (word b2 b1))
  | .rts => some .rts
  | .bpl => some (.bpl b1)
  | .bmi => some (.bmi b1)
  | .bvc => some (.bvc b1)
  | .bvs => some (.bvs b1)
  | .bcc => some (.bcc b1)
  | .bcs => some (.bcs b1)
  | .bne => some (.bne b1)
  | .beq => some (.beq b1)
  | .pha => some .pha
  | .pla => some .pla
  | .php => some .php
  | .plp => some .plp
  | .clc => some .clc
  | .sec => some .sec
  | .cli => some .cli
  | .sei => some .sei
  | .cld => some .cld
  | .sed => some .sed
  | .clv => some .clv
  | .nop => some .nop
  | .brk => some .brk
  | .rti => some .rti

/-- The instruction an opcode byte and its operand bytes stand for. A value whose entry has no instruction body is unimplemented (R98). -/
def decodeInstr (op : Byte) (operands : List Byte) : Instr :=
  match dispatch op with
  | none => .unimpl op
  | some (k, mode) => (assemble k mode (operands.getD 0 0) (operands.getD 1 0)).getD (.unimpl op)

/-- Why a byte string is no instruction: it is too short. Every opcode byte and every operand byte is accepted (R99). -/
inductive DecodeError where
  /-- No byte at all. -/
  | noOpcode
  /-- Fewer operand bytes than the opcode's mode needs (R93). -/
  | missingOperand (op : Byte)
  deriving DecidableEq, Repr

/-- The first instruction of a byte string and the bytes after it (R92, R100). -/
def decode : List Byte → Except DecodeError (Instr × List Byte)
  | [] => .error .noOpcode
  | op :: rest =>
    if rest.length < operandCount op then .error (.missingOperand op)
    else .ok (decodeInstr op (rest.take (operandCount op)), rest.drop (operandCount op))

/-- An instruction of `nbits` bits numbered as spec/opcode_table.json numbers them, as bytes at rising addresses: bit 0 is the least
significant bit of the first byte (R101). Bits above `nbits` are 0, up to the longest instruction, three bytes (R92). -/
def tableWordBytes (nbits w : Nat) : List Byte :=
  let v := w % 2 ^ nbits
  [BitVec.ofNat 8 v, BitVec.ofNat 8 (v / 0x100), BitVec.ofNat 8 (v / 0x10000)]

/-- The instruction the decoder reads from a word of the opcode table. -/
def decodeTableWord (nbits w : Nat) : Option Instr :=
  match decode (tableWordBytes nbits w) with
  | .ok (i, _) => some i
  | .error _ => none

/-! ## The encoder -/

/-- The encoding table of each instruction, as its own rule gives it: mode and opcode value. -/
def encodings : Mnemonic → List (Mode × Byte)
  | .lda => [(.imm, 0xA9), (.zp, 0xA5), (.zpx, 0xB5), (.abs, 0xAD), (.absx, 0xBD), (.absy, 0xB9), (.indx, 0xA1), (.indy, 0xB1)]
  | .ldx => [(.imm, 0xA2), (.zp, 0xA6), (.zpy, 0xB6), (.abs, 0xAE), (.absy, 0xBE)]
  | .ldy => [(.imm, 0xA0), (.zp, 0xA4), (.zpx, 0xB4), (.abs, 0xAC), (.absx, 0xBC)]
  | .sta => [(.zp, 0x85), (.zpx, 0x95), (.abs, 0x8D), (.absx, 0x9D), (.absy, 0x99), (.indx, 0x81), (.indy, 0x91)]
  | .stx => [(.zp, 0x86), (.zpy, 0x96), (.abs, 0x8E)]
  | .sty => [(.zp, 0x84), (.zpx, 0x94), (.abs, 0x8C)]
  | .tax => [(.imp, 0xAA)]
  | .tay => [(.imp, 0xA8)]
  | .txa => [(.imp, 0x8A)]
  | .tya => [(.imp, 0x98)]
  | .tsx => [(.imp, 0xBA)]
  | .txs => [(.imp, 0x9A)]
  | .adc => [(.imm, 0x69), (.zp, 0x65), (.zpx, 0x75), (.abs, 0x6D), (.absx, 0x7D), (.absy, 0x79), (.indx, 0x61), (.indy, 0x71)]
  | .sbc => [(.imm, 0xE9), (.zp, 0xE5), (.zpx, 0xF5), (.abs, 0xED), (.absx, 0xFD), (.absy, 0xF9), (.indx, 0xE1), (.indy, 0xF1)]
  | .and => [(.imm, 0x29), (.zp, 0x25), (.zpx, 0x35), (.abs, 0x2D), (.absx, 0x3D), (.absy, 0x39), (.indx, 0x21), (.indy, 0x31)]
  | .ora => [(.imm, 0x09), (.zp, 0x05), (.zpx, 0x15), (.abs, 0x0D), (.absx, 0x1D), (.absy, 0x19), (.indx, 0x01), (.indy, 0x11)]
  | .eor => [(.imm, 0x49), (.zp, 0x45), (.zpx, 0x55), (.abs, 0x4D), (.absx, 0x5D), (.absy, 0x59), (.indx, 0x41), (.indy, 0x51)]
  | .bit => [(.zp, 0x24), (.abs, 0x2C)]
  | .cmp => [(.imm, 0xC9), (.zp, 0xC5), (.zpx, 0xD5), (.abs, 0xCD), (.absx, 0xDD), (.absy, 0xD9), (.indx, 0xC1), (.indy, 0xD1)]
  | .cpx => [(.imm, 0xE0), (.zp, 0xE4), (.abs, 0xEC)]
  | .cpy => [(.imm, 0xC0), (.zp, 0xC4), (.abs, 0xCC)]
  | .inc => [(.zp, 0xE6), (.zpx, 0xF6), (.abs, 0xEE), (.absx, 0xFE)]
  | .dec => [(.zp, 0xC6), (.zpx, 0xD6), (.abs, 0xCE), (.absx, 0xDE)]
  | .inx => [(.imp, 0xE8)]
  | .iny => [(.imp, 0xC8)]
  | .dex => [(.imp, 0xCA)]
  | .dey => [(.imp, 0x88)]
  | .asl => [(.acc, 0x0A), (.zp, 0x06), (.zpx, 0x16), (.abs, 0x0E), (.absx, 0x1E)]
  | .lsr => [(.acc, 0x4A), (.zp, 0x46), (.zpx, 0x56), (.abs, 0x4E), (.absx, 0x5E)]
  | .rol => [(.acc, 0x2A), (.zp, 0x26), (.zpx, 0x36), (.abs, 0x2E), (.absx, 0x3E)]
  | .ror => [(.acc, 0x6A), (.zp, 0x66), (.zpx, 0x76), (.abs, 0x6E), (.absx, 0x7E)]
  | .jmp => [(.abs, 0x4C), (.ind, 0x6C)]
  | .jsr => [(.abs, 0x20)]
  | .rts => [(.imp, 0x60)]
  | .bpl => [(.rel, 0x10)]
  | .bmi => [(.rel, 0x30)]
  | .bvc => [(.rel, 0x50)]
  | .bvs => [(.rel, 0x70)]
  | .bcc => [(.rel, 0x90)]
  | .bcs => [(.rel, 0xB0)]
  | .bne => [(.rel, 0xD0)]
  | .beq => [(.rel, 0xF0)]
  | .pha => [(.imp, 0x48)]
  | .pla => [(.imp, 0x68)]
  | .php => [(.imp, 0x08)]
  | .plp => [(.imp, 0x28)]
  | .clc => [(.imp, 0x18)]
  | .sec => [(.imp, 0x38)]
  | .cli => [(.imp, 0x58)]
  | .sei => [(.imp, 0x78)]
  | .cld => [(.imp, 0xD8)]
  | .sed => [(.imp, 0xF8)]
  | .clv => [(.imp, 0xB8)]
  | .nop => [(.imp, 0xEA)]
  | .brk => [(.imp, 0x00)]
  | .rti => [(.imp, 0x40)]

/-- The kind of an instruction; an unimplemented opcode has none. -/
def Instr.kind : Instr → Option Mnemonic
  | .lda _ => some .lda
  | .ldx _ => some .ldx
  | .ldy _ => some .ldy
  | .sta _ => some .sta
  | .stx _ => some .stx
  | .sty _ => some .sty
  | .tax => some .tax
  | .tay => some .tay
  | .txa => some .txa
  | .tya => some .tya
  | .tsx => some .tsx
  | .txs => some .txs
  | .adc _ => some .adc
  | .sbc _ => some .sbc
  | .and _ => some .and
  | .ora _ => some .ora
  | .eor _ => some .eor
  | .bit _ => some .bit
  | .cmp _ => some .cmp
  | .cpx _ => some .cpx
  | .cpy _ => some .cpy
  | .inc _ => some .inc
  | .dec _ => some .dec
  | .inx => some .inx
  | .iny => some .iny
  | .dex => some .dex
  | .dey => some .dey
  | .asl _ => some .asl
  | .lsr _ => some .lsr
  | .rol _ => some .rol
  | .ror _ => some .ror
  | .jmp _ => some .jmp
  | .jsr _ => some .jsr
  | .rts => some .rts
  | .bpl _ => some .bpl
  | .bmi _ => some .bmi
  | .bvc _ => some .bvc
  | .bvs _ => some .bvs
  | .bcc _ => some .bcc
  | .bcs _ => some .bcs
  | .bne _ => some .bne
  | .beq _ => some .beq
  | .pha => some .pha
  | .pla => some .pla
  | .php => some .php
  | .plp => some .plp
  | .clc => some .clc
  | .sec => some .sec
  | .cli => some .cli
  | .sei => some .sei
  | .cld => some .cld
  | .sed => some .sed
  | .clv => some .clv
  | .nop => some .nop
  | .brk => some .brk
  | .rti => some .rti
  | .unimpl _ => none

/-- The addressing mode of an instruction (R93). -/
def Instr.mode : Instr → Mode
  | .lda o => o.mode
  | .ldx o => o.mode
  | .ldy o => o.mode
  | .adc o => o.mode
  | .sbc o => o.mode
  | .and o => o.mode
  | .ora o => o.mode
  | .eor o => o.mode
  | .cmp o => o.mode
  | .cpx o => o.mode
  | .cpy o => o.mode
  | .sta m => m.mode
  | .stx m => m.mode
  | .sty m => m.mode
  | .bit m => m.mode
  | .inc m => m.mode
  | .dec m => m.mode
  | .asl o => o.mode
  | .lsr o => o.mode
  | .rol o => o.mode
  | .ror o => o.mode
  | .jmp o => o.mode
  | .jsr _ => .abs
  | .bpl _ | .bmi _ | .bvc _ | .bvs _ | .bcc _ | .bcs _ | .bne _ | .beq _ => .rel
  | .tax | .tay | .txa | .tya | .tsx | .txs | .inx | .iny | .dex | .dey | .rts | .pha | .pla | .php | .plp
  | .clc | .sec | .cli | .sei | .cld | .sed | .clv | .nop | .brk | .rti => .imp
  | .unimpl _ => .imp

/-- The operand bytes of a form, at rising addresses: one byte, or the low and then the high byte of an address (R92). -/
def EaMode.bytes : EaMode → List Byte
  | .zp b | .zpx b | .zpy b | .indx b | .indy b => [b]
  | .abs w | .absx w | .absy w => [lo8 w, hi8 w]

def Src.bytes : Src → List Byte
  | .imm b => [b]
  | .mem m => m.bytes

def ShiftOperand.bytes : ShiftOperand → List Byte
  | .acc => []
  | .mem m => m.bytes

def JmpOperand.bytes : JmpOperand → List Byte
  | .abs w | .ind w => [lo8 w, hi8 w]

/-- The operand bytes of an instruction. -/
def Instr.operandBytes : Instr → List Byte
  | .lda o => o.bytes
  | .ldx o => o.bytes
  | .ldy o => o.bytes
  | .adc o => o.bytes
  | .sbc o => o.bytes
  | .and o => o.bytes
  | .ora o => o.bytes
  | .eor o => o.bytes
  | .cmp o => o.bytes
  | .cpx o => o.bytes
  | .cpy o => o.bytes
  | .sta m => m.bytes
  | .stx m => m.bytes
  | .sty m => m.bytes
  | .bit m => m.bytes
  | .inc m => m.bytes
  | .dec m => m.bytes
  | .asl o => o.bytes
  | .lsr o => o.bytes
  | .rol o => o.bytes
  | .ror o => o.bytes
  | .jmp o => o.bytes
  | .jsr w => [lo8 w, hi8 w]
  | .bpl off | .bmi off | .bvc off | .bvs off | .bcc off | .bcs off | .bne off | .beq off => [off]
  | .tax | .tay | .txa | .tya | .tsx | .txs | .inx | .iny | .dex | .dey | .rts | .pha | .pla | .php | .plp
  | .clc | .sec | .cli | .sei | .cld | .sed | .clv | .nop | .brk | .rti => []
  | .unimpl _ => []

/-- The opcode byte of an instruction, `none` for a form the hardware does not encode. -/
def Instr.opcode (i : Instr) : Option Byte :=
  match i with
  | .unimpl op => if unimplementedOpcodes.contains op then some op else none
  | i => i.kind.bind fun k => (encodings k).lookup i.mode

/-- The bytes of an instruction at rising addresses (R92), `none` for a form the hardware does not encode. -/
def encode (i : Instr) : Option (List Byte) :=
  i.opcode.map fun op => op :: i.operandBytes

end Sys2Proof
end

