-- ==== Sys2Proof/Machine/Cycles.lean ====
section
/-! DEFINITION. The cost of an opcode value (70_reset_and_hazards.md R282, R283). -/

namespace Sys2Proof.Machine

/-- The default costs of R283, by high and low nibble, 0 where R283 gives none: "the reference NMOS 6502 base cycle counts", which
the spec itself takes from general knowledge (entry 5). -/
def defaultCostRows : List (List Nat) :=
  [[7, 6, 0, 0, 0, 3, 5, 0, 3, 2, 2, 0, 0, 4, 6, 0],
   [2, 5, 0, 0, 0, 4, 6, 0, 2, 4, 0, 0, 0, 4, 7, 0],
   [6, 6, 0, 0, 3, 3, 5, 0, 4, 2, 2, 0, 4, 4, 6, 0],
   [2, 5, 0, 0, 0, 4, 6, 0, 2, 4, 0, 0, 0, 4, 7, 0],
   [6, 6, 0, 0, 0, 3, 5, 0, 3, 2, 2, 0, 3, 4, 6, 0],
   [2, 5, 0, 0, 0, 4, 6, 0, 2, 4, 0, 0, 0, 4, 7, 0],
   [6, 6, 0, 0, 0, 3, 5, 0, 4, 2, 2, 0, 5, 4, 6, 0],
   [2, 5, 0, 0, 0, 4, 6, 0, 2, 4, 0, 0, 0, 4, 7, 0]] ++
  [[0, 6, 0, 0, 3, 3, 3, 0, 2, 0, 2, 0, 4, 4, 4, 0],
   [2, 6, 0, 0, 4, 4, 4, 0, 2, 5, 2, 0, 0, 5, 0, 0],
   [2, 6, 2, 0, 3, 3, 3, 0, 2, 2, 2, 0, 4, 4, 4, 0],
   [2, 5, 0, 0, 4, 4, 4, 0, 2, 4, 2, 0, 4, 4, 4, 0],
   [2, 6, 0, 0, 3, 3, 5, 0, 2, 2, 2, 0, 4, 4, 6, 0],
   [2, 5, 0, 0, 0, 4, 6, 0, 2, 4, 0, 0, 0, 4, 7, 0],
   [2, 6, 0, 0, 3, 3, 5, 0, 2, 2, 2, 0, 4, 4, 6, 0],
   [2, 5, 0, 0, 0, 4, 6, 0, 2, 4, 0, 0, 0, 4, 7, 0]]

/-- R283's default for an opcode value, none for the 105 unimplemented ones. -/
def defaultCycleCost (op : Byte) : Option Nat :=
  match (defaultCostRows.getD (op.toNat / 16) []).getD (op.toNat % 16) 0 with
  | 0 => none
  | n + 1 => some (n + 1)

/-- `CYCLE_COST(op)` (R282), a function of the opcode value alone: an open parameter, which a launch may fix for any value; where
it does not, R283's default; where R283 has none, a free value (entry 5). -/
def cycleCost (op : Byte) : Nat :=
  match Config.launchCycleCost op, defaultCycleCost op with
  | some n, _ => n
  | none, some n => n
  | none, none => Config.untabledCycleCost op

end Sys2Proof.Machine
end

