-- ==== Sys2Proof/Machine/Fetch.lean ====
section
/-! DEFINITION. Fetching an instruction's bytes through the bus (30_encoding.md R90, R91), charging its cost, and placing an instruction
where the machine fetches next. -/

namespace Sys2Proof.Machine

/-- `n` successive `Fetch8()`. -/
def fetchBytes : Nat → State → List Byte × State
  | 0, s => ([], s)
  | n + 1, s =>
    let b := fetch8 s
    let rest := fetchBytes n b.2
    (b.1 :: rest.1, rest.2)

/-- What fetching an instruction yields. -/
structure Fetched where
  /-- the opcode byte -/
  op : Byte
  /-- the instruction -/
  instr : Instr
  /-- the state after all its bytes have been fetched: `PC = P + L` (10_state.md R24) -/
  state : State
  deriving DecidableEq, Repr

/-- Fetch the opcode byte and then as many operand bytes as its mode needs (R90, R93). An unimplemented opcode fetches no operand
byte (R226). -/
def fetchInstr (s : State) : Fetched :=
  let op := fetch8 s
  let operands := fetchBytes (operandCount op.1) op.2
  { op := op.1, instr := decodeInstr op.1 operands.1, state := operands.2 }

/-- `CYC <- CYC + CYCLE_COST(op)` at the end of a step (R90). -/
def chargeCycles (op : Byte) (r : Result) : Result :=
  match r with
  | .next t => .next (t.setCyc (t.cyc + cycleCost op))
  | .fault f => .fault f
  | .refused f => .refused f

/-- Memory (RAM or `PRG`) stands behind an address. -/
def storable (s : State) (a : Addr) : Bool := (s.peek a).isSome

/-- Put a byte into the memory behind an address, RAM or cartridge, from outside the machine. -/
def place (a : Addr) (v : Byte) (s : State) : State :=
  match route a with
  | .ram cell => s.setRam (s.ram.write cell v)
  | .mapper =>
    match prgIndex s.prgPages a with
    | some k => s.setPrg (s.prg.write k v)
    | none => s
  | .periph _ | .unhandled => s

/-- Put bytes at successive addresses. -/
def placeBytes : Addr → List Byte → State → State
  | _, [], s => s
  | a, v :: rest, s => placeBytes (a + 1) rest (place a v s)

/-- Where three bytes can be placed for the next fetch: at `PC` where memory stands behind it and the two addresses after it,
else at 0x0000 (RAM). -/
def placementAddr (s : State) : Addr :=
  if storable s s.pc && storable s (s.pc + 1) && storable s (s.pc + 2) then s.pc else 0x0000

end Sys2Proof.Machine
end

