-- ==== Sys2Proof/Machine/Step.lean ====
section
/-! DEFINITION. One step (30_encoding.md R90). -/

namespace Sys2Proof.Machine

/-- `STEP` (R90): fetch, execute the body, add the cost. Refused before the first `POWER_ON` (70_reset_and_hazards.md R275). -/
def step (s : State) : Host.Outcome State Fault Refusal :=
  if s.poweredOn then
    chargeCycles (fetchInstr s).op (exec (fetchInstr s).instr (fetchInstr s).state)
  else .refused .stepBeforePowerOn

/-- The state with an instruction placed where `step` fetches its next one (entry 11): powered on, its bytes at `PC`, or at
0x0000 with `PC` there where `PC` has no memory behind it. -/
def State.withFetchWord (s : State) (nbits w : Nat) : State :=
  placeBytes (placementAddr s) (tableWordBytes nbits w) ((s.setPc (placementAddr s)).setPoweredOn true)

end Sys2Proof.Machine
end

