-- ==== Sys2Proof/Machine/Launch.lean ====
section
/-! DEFINITION. What the host does to the machine: fix the cartridge (20_memory.md R60), `POWER_ON` (70_reset_and_hazards.md R270) and
`STEP` (R281). -/

namespace Sys2Proof.Machine

/-- The launch (R6, R60): the parameters `PRG_PAGES`, `PRG` and `RAM_INIT` make a machine before its first `POWER_ON`. A page count
other than 1 or 2, or a `PRG` that is not `PRG_PAGES * 0x4000` bytes long, is refused. The registers before `POWER_ON` are undefined
(R275); the model gives every field but RAM, the cartridge and `poweredOn` the value it has in `State.reset` (DESIGN CHOICE,
entry 8): so `PC` is 0x0000 here, whatever the cartridge's reset vector holds, until `POWER_ON` loads it. No step runs before that. -/
def launch (pages : Nat) (prg : List Byte) (ramInit : Vector Byte 0x800) : Result :=
  let machine (p : PrgPages) : State :=
    { State.reset with
      ram := Memory.ofBytes 0 ramInit.toList, prg := Memory.ofBytes 0 prg, prgPages := p, poweredOn := false }
  if pages = 1 ∧ prg.length = PrgPages.one.size then .next (machine .one)
  else if pages = 2 ∧ prg.length = PrgPages.two.size then .next (machine .two)
  else .refused .badCartridge

/-- `POWER_ON` (R270, R271): registers and flags re-initialised, then `PC` from the reset vector; RAM and `REPORT` are kept;
`CYC` is `CYC_INIT` (decision D21). -/
def powerOn (s : State) : State :=
  let s1 : State := { s with
    a := 0x00, x := 0x00, y := 0x00, sp := 0xFD, p := Status.reset, cyc := Config.cycInit, poweredOn := true }
  let vector := memRead16 resetVector s1
  vector.2.setPc vector.1

/-- The two commands of the host (R281). -/
inductive Command where
  | powerOn
  | step
  deriving DecidableEq, Repr

/-- What a command does. -/
def command (c : Command) (s : State) : Result :=
  match c with
  | .powerOn => .next (powerOn s)
  | .step => step s

end Sys2Proof.Machine
end

