-- ==== Sys2Proof/Safety.lean ====
section
/-! DEFINITION. What counts as a safe run, in the terms claims use: the invariant of the data, and "gone wrong" (00_scope.md R9). -/

namespace Sys2Proof.Machine

/-- The data invariant: RAM is in canonical form within 0x800 cells (20_memory.md R54), `PRG` in canonical form within its
`PRG_PAGES * 0x4000` bytes (R60). -/
def State.inv (s : State) : Bool :=
  s.ram.wf && s.ram.below 0x800 && s.prg.wf && s.prg.below s.prgPages.size

/-- "Gone wrong" (R9): "the `REPORT` stream is non-empty". -/
def State.goneWrong (s : State) : Bool := !s.report.isEmpty

end Sys2Proof.Machine
end

