-- ==== Sys2Proof/Certificates/Slice0/Obligations.lean ====
section
/-! DEFINITION. The statements for the provers. The names under `Sys2Proof.Claims` are the vocabulary they are written in; each
`Obligations.<Name>` is one statement. The rules cited include those for which the spec names general knowledge as its source
(opcode values, most instruction bodies). Where a statement rests on a decision the spec marks as its own (D<n> of
92_eei_decisions.md), on an inference it marks as derived, or on an entry of notes/assumptions, its docstring says so. -/

namespace Sys2Proof.Claims

open Sys2Proof.Machine

/-- Two bus addresses show the same RAM cell (20_memory.md R54). -/
def SameCell (a b : Addr) : Prop :=
  a.toNat ≤ 0x1FFF ∧ b.toNat ≤ 0x1FFF ∧ a.toNat % 0x800 = b.toNat % 0x800

/-- Every byte of memory reads as before. -/
def MemoryKept (s t : State) : Prop := ∀ b : Addr, t.peek b = s.peek b

/-- Every byte of memory outside the RAM cell that the address `a` names reads as before. -/
def MemoryKeptBut (a : Addr) (s t : State) : Prop := ∀ b : Addr, ¬ SameCell a b → t.peek b = s.peek b

/-- The general registers, `SP` and `PC` are unchanged. -/
def RegistersKept (s t : State) : Prop := t.a = s.a ∧ t.x = s.x ∧ t.y = s.y ∧ t.sp = s.sp ∧ t.pc = s.pc

/-- The cartridge, the cycle counter and the power state are unchanged. -/
def RestKept (s t : State) : Prop :=
  t.prg = s.prg ∧ t.prgPages = s.prgPages ∧ t.cyc = s.cyc ∧ t.poweredOn = s.poweredOn

/-- No report is raised and no peripheral transaction made. -/
def StreamsKept (s t : State) : Prop := t.report = s.report ∧ t.periph = s.periph

/-- The peripheral register behind an address (R51, R55, R57). -/
def PeriphAt (a : Addr) (reg : PeriphReg) : Prop :=
  (0x2000 ≤ a.toNat ∧ a.toNat ≤ 0x3FFF ∧ ∃ k : Fin 8, k.val = a.toNat % 8 ∧ reg = .g k) ∨
    (a.toNat = 0x4014 ∧ reg = .dma) ∨
    (0x4000 ≤ a.toNat ∧ a.toNat ≤ 0x4017 ∧ a.toNat ≠ 0x4014 ∧ ∃ k : Fin 24, k.val = a.toNat - 0x4000 ∧ reg = .io k)

/-- What one bus write of `v` to `a` did to memory and the streams, by address range (R53): a RAM cell stored, a peripheral
transaction, or a report. -/
def Stored (a : Addr) (v : Byte) (s t : State) : Prop :=
  (a.toNat ≤ 0x1FFF → (∀ b, SameCell a b → t.peek b = some v) ∧ StreamsKept s t) ∧
    MemoryKeptBut a s t ∧
    (∀ reg, PeriphAt a reg → t.report = s.report ∧ t.periph = s.periph ++ [.write reg v]) ∧
    (0x4018 ≤ a.toNat → a.toNat ≤ 0x401F → t.report = s.report ++ [.unhandledAddress a .write] ∧ t.periph = s.periph) ∧
    (0x4020 ≤ a.toNat → t.report = s.report ++ [.unsupportedWrite a v] ∧ t.periph = s.periph)

/-- The byte stored at a RAM address: every address that shows its cell reads as `v`. -/
def Holds (t : State) (a : Addr) (v : Byte) : Prop := ∀ b, SameCell a b → t.peek b = some v

/-- `SetZN(v)` said with numbers (10_state.md R29). -/
def withZN (p : Status) (v : Byte) : Status := { p with z := decide (v.toNat = 0), n := decide (128 ≤ v.toNat) }

/-- A byte is the image of a status word with bit 4 as given and bit 5 set (R26, R27). -/
def StatusImage (p : Status) (b4 : Bool) (w : Byte) : Prop :=
  w.toNat = p.c.toNat + 2 * p.z.toNat + 4 * p.i.toNat + 8 * p.d.toNat + 16 * b4.toNat + 32 + 64 * p.v.toNat + 128 * p.n.toNat

/-- The status word a byte loads, all seven flags (R28). -/
def loaded (v : Byte) : Status :=
  { c := v.getLsbD 0, z := v.getLsbD 1, i := v.getLsbD 2, d := v.getLsbD 3, b := v.getLsbD 4, v := v.getLsbD 6, n := v.getLsbD 7 }

/-- An instruction with an operand `o` is encoded as its rule's table says: the opcode of the operand's mode, then its bytes. -/
def EncodedBy (i : Instr) (mode : Mode) (bytes : List Byte) (table : List (Mode × Byte)) : Prop :=
  encode i = (table.lookup mode).map fun op => op :: bytes

/-- An instruction that reads a byte loads it into a register: the whole next state, every register, flag, stream and the memory. -/
def LoadsInto (i : Instr) (o : Src) (update : State → Byte → State) : Prop :=
  ∀ s : State, ∃ t, exec i s = .next t ∧
    t = update { s with p := withZN s.p (readOperand o s).1, report := (readOperand o s).2.report,
                        periph := (readOperand o s).2.periph } (readOperand o s).1 ∧
    MemoryKept s t

/-- An instruction stores a register's byte through an operand form and changes no register and no flag (41_load_store_transfer.md
R133 to R135). -/
def StoresByte (i : Instr) (m : EaMode) (value : State → Byte) : Prop :=
  ∀ s : State, s.inv = true → ∃ t, exec i s = .next t ∧ Stored (resolve m s).1 (value s) s t ∧
    RegistersKept s t ∧ t.p = s.p ∧ RestKept s t

/-- An instruction copies a byte into a register and sets `Z` and `N` from it. -/
def Transfers (i : Instr) (op : Byte) (value : State → Byte) (update : State → Byte → State) : Prop :=
  encode i = some [op] ∧ ∀ s : State, ∃ t, exec i s = .next t ∧
    t = update { s with p := withZN s.p (value s) } (value s) ∧ MemoryKept s t

/-- An instruction combines `A` with its operand into `A`. -/
def CombinesIntoA (i : Instr) (o : Src) (f : Byte → Byte → Byte) : Prop :=
  ∀ s : State, ∃ t, exec i s = .next t ∧
    t = { s with a := f s.a (readOperand o s).1, p := withZN s.p (f s.a (readOperand o s).1),
                 report := (readOperand o s).2.report, periph := (readOperand o s).2.periph } ∧
    MemoryKept s t

/-- An instruction compares a register with its operand (42_arithmetic_logic.md R159): `C` iff not below, `Z` iff equal, `N` bit 7 of
the difference; no other flag and no register changes. -/
def Compares (i : Instr) (o : Src) (reg : State → Byte) : Prop :=
  ∀ s : State, ∃ t, exec i s = .next t ∧
    t = { s with p := { s.p with c := decide ((readOperand o s).1.toNat ≤ (reg s).toNat),
                                 z := decide ((readOperand o s).1 = reg s),
                                 n := decide (128 ≤ ((reg s).toNat + 256 - (readOperand o s).1.toNat) % 256) },
                 report := (readOperand o s).2.report, periph := (readOperand o s).2.periph } ∧
    MemoryKept s t

/-- An instruction reads a byte of memory, writes a byte back and sets flags: one read, then one write of the effective address. -/
def Rewrites (i : Instr) (m : EaMode) (result : State → Byte → Byte) (flags : State → Byte → Status) : Prop :=
  ∀ s : State, s.inv = true → ∃ t, exec i s = .next t ∧
    Stored (resolve m s).1 (result s (busRead (resolve m s).1 s).1) (busRead (resolve m s).1 s).2 t ∧
    RegistersKept s t ∧ t.p = flags s (busRead (resolve m s).1 s).1 ∧ RestKept s t

/-- The result of a shift or rotate as a number (43_shift_rotate.md R180). -/
def shifted : ShiftKind → Byte → Bool → Byte
  | .asl, v, _ => BitVec.ofNat 8 (2 * v.toNat)
  | .lsr, v, _ => BitVec.ofNat 8 (v.toNat / 2)
  | .rol, v, c => BitVec.ofNat 8 (2 * v.toNat + c.toNat)
  | .ror, v, c => BitVec.ofNat 8 (v.toNat / 2 + 128 * c.toNat)

/-- The bit shifted out (R180): bit 7 to the left, bit 0 to the right. -/
def shiftedOut : ShiftKind → Byte → Bool
  | .asl, v | .rol, v => decide (128 ≤ v.toNat)
  | .lsr, v | .ror, v => decide (v.toNat % 2 = 1)

/-- The flags after a shift of `v` (R180): `C` the bit shifted out, `Z` and `N` from the result, no other. -/
def shiftFlags (kind : ShiftKind) (s : State) (v : Byte) : Status :=
  withZN { s.p with c := shiftedOut kind v } (shifted kind v s.p.c)

/-- A shift instruction is encoded by its table and shifts `A` or the byte of memory. -/
def Shifts (mk : ShiftOperand → Instr) (kind : ShiftKind) (table : List (Mode × Byte)) : Prop :=
  (∀ o, EncodedBy (mk o) o.mode o.bytes table) ∧
    (∀ s : State, ∃ t, exec (mk .acc) s = .next t ∧
      t = { s with a := shifted kind s.a s.p.c, p := shiftFlags kind s s.a } ∧ MemoryKept s t) ∧
    ∀ m, Rewrites (mk (.mem m)) m (fun s v => shifted kind v s.p.c) (shiftFlags kind)

/-- A branch is encoded by its opcode and its offset byte, and moves `PC` by the signed offset iff its condition holds; nothing else
changes (44_control_flow.md R196). `PC` is the address of the next instruction here, `P + 2`. -/
def Branches (mk : Byte → Instr) (op : Byte) (cond : Status → Bool) : Prop :=
  ∀ off, encode (mk off) = some [op, off] ∧ ∀ s : State, ∃ t, exec (mk off) s = .next t ∧
    (cond s.p = true → t = { s with pc := t.pc } ∧ ((t.pc.toNat : Int) - (s.pc.toNat + off.toInt)) % 0x10000 = 0) ∧
    (cond s.p = false → t = s) ∧ MemoryKept s t

/-- A one-byte instruction writes one flag and nothing else. -/
def SetsFlag (i : Instr) (op : Byte) (p' : Status → Status) : Prop :=
  encode i = some [op] ∧ ∀ s : State, ∃ t, exec i s = .next t ∧ t = { s with p := p' s.p } ∧ MemoryKept s t

/-- A push of one byte by a one-byte instruction: the byte at the old stack location, `SP` one lower, nothing else changed. -/
def PushesByte (i : Instr) (op : Byte) (pushed : State → Byte → Prop) : Prop :=
  encode i = some [op] ∧ ∀ s : State, s.inv = true → ∃ t v, exec i s = .next t ∧ pushed s v ∧
    Holds t (stackAddr s.sp) v ∧ MemoryKeptBut (stackAddr s.sp) s t ∧ t.sp = s.sp - 1 ∧
    t.a = s.a ∧ t.x = s.x ∧ t.y = s.y ∧ t.pc = s.pc ∧ t.p = s.p ∧ StreamsKept s t ∧ RestKept s t

/-- `n` executions of one instruction body after another. -/
def times : Nat → Instr → State → Result
  | 0, _, s => .next s
  | n + 1, i, s =>
    match exec i s with
    | .next t => times n i t
    | .fault f => .fault f
    | .refused r => .refused r

/-- The step of `s` is the body of `i` on the state `u`, and then the cost of the opcode `op` added to `CYC`. -/
def StepIs (s : State) (op : Byte) (i : Instr) (u : State) : Prop :=
  ∃ t, exec i u = .next t ∧ step s = .next { t with cyc := t.cyc + cycleCost op }

/-- An outcome with its next state changed. -/
def mapNext (f : State → State) : Result → Result
  | .next t => .next (f t)
  | .fault r => .fault r
  | .refused r => .refused r

end Sys2Proof.Claims

open Sys2Proof Sys2Proof.Machine Sys2Proof.Claims

/-! ## Encoding and decoding -/

/-- The example bytes of 30_encoding.md R103, one for each addressing mode, and an unimplemented value (45_stack_flags_system.md
R226), which takes one byte and leaves the next: its length is the spec's decision D2. -/
def Obligations.ExampleBytesDecode : Prop :=
  decode [0b00011000] = .ok (.clc, []) ∧
  decode [0b00001010] = .ok (.asl .acc, []) ∧
  decode [0b10101001, 0x42] = .ok (.lda (.imm 0x42), []) ∧
  decode [0b10000101, 0x00] = .ok (.sta (.zp 0x00), []) ∧
  decode [0b10110101, 0x10] = .ok (.lda (.mem (.zpx 0x10)), []) ∧
  decode [0b10110110, 0x10] = .ok (.ldx (.mem (.zpy 0x10)), []) ∧
  decode [0b11010000, 0xFB] = .ok (.bne 0xFB, []) ∧
  decode [0b01001100, 0x00, 0x80] = .ok (.jmp (.abs 0x8000), []) ∧
  decode [0b10011101, 0x00, 0x02] = .ok (.sta (.absx 0x0200), []) ∧
  decode [0b10111001, 0x00, 0x02] = .ok (.lda (.mem (.absy 0x0200)), []) ∧
  decode [0b01101100, 0x10, 0x02] = .ok (.jmp (.ind 0x0210), []) ∧
  decode [0b10100001, 0x20] = .ok (.lda (.mem (.indx 0x20)), []) ∧
  decode [0b10010001, 0x20] = .ok (.sta (.indy 0x20), []) ∧
  decode [0b00000010, 0x20] = .ok (.unimpl 0x02, [0x20])

/-- Decoding the bytes of a well-formed instruction gives it back, whatever follows them. -/
def Obligations.DecodeUndoesEncode : Prop :=
  ∀ i : Instr, i.wf = true → ∃ bs, encode i = some bs ∧ ∀ rest, decode (bs ++ rest) = .ok (i, rest)

/-- Whatever bytes are decoded, the instruction is well-formed and its encoding is exactly the bytes consumed. -/
def Obligations.EncodeUndoesDecode : Prop :=
  ∀ (bytes : List Byte) (i : Instr) (rest : List Byte), decode bytes = .ok (i, rest) →
    i.wf = true ∧ ∃ bs, encode i = some bs ∧ bytes = bs ++ rest

/-- Decoding fails only for want of bytes: any three bytes hold an instruction, and how many of them it takes depends on the first
byte alone (30_encoding.md R93, R99, R100). -/
def Obligations.ThreeBytesAlwaysDecode : Prop :=
  ∃ extra : Byte → Nat, ∀ (op b1 b2 : Byte) (rest : List Byte), extra op ≤ 2 ∧
    ∃ i, decode (op :: b1 :: b2 :: rest) = .ok (i, (b1 :: b2 :: rest).drop (extra op))

/-! ## The step -/

/-- A step runs the decoded instruction (R90): where the bytes of `i` stand in memory at `PC`, the step is the body of `i` with `PC`
past them, and the opcode's cost added to `CYC`. -/
def Obligations.StepRunsTheDecodedInstruction : Prop :=
  ∀ (s : State) (i : Instr) (op : Byte) (operands : List Byte), s.poweredOn = true →
    encode i = some (op :: operands) →
    (∀ (k : Nat) (h : k < (op :: operands).length), s.peek (s.pc + BitVec.ofNat 16 k) = some (op :: operands)[k]) →
    ∃ t, exec i { s with pc := s.pc + BitVec.ofNat 16 (op :: operands).length } = .next t ∧
      step s = .next { t with cyc := t.cyc + cycleCost op }

/-- A step fetches through the bus wherever `PC` points, a peripheral or an unhandled address included (R90, R91, 20_memory.md R72):
the opcode by one bus read at `PC`, then as many operand bytes as it needs, none, one or two, each by one bus read at the next
address (modulo 0x10000) on the state the read before it left; no other read is made. What the bytes decode to then runs on the
state the last read left, with `PC` past them. That these are the only fetches is the spec's decision D14 (R68); that the bytes from
such addresses are what the bus returns, the spec marks as derived (R72). -/
def Obligations.StepFetchesThroughTheBus : Prop :=
  ∀ s : State, s.poweredOn = true →
    let r0 := busRead s.pc s
    let r1 := busRead (s.pc + 1) r0.2
    let r2 := busRead (s.pc + 2) r1.2
    ((∃ i, decode [r0.1] = .ok (i, [])) ∨ (∃ i, decode [r0.1, r1.1] = .ok (i, [])) ∨
      ∃ i, decode [r0.1, r1.1, r2.1] = .ok (i, [])) ∧
    (∀ i, decode [r0.1] = .ok (i, []) → StepIs s r0.1 i { r0.2 with pc := s.pc + 1 }) ∧
    (∀ i, decode [r0.1, r1.1] = .ok (i, []) → StepIs s r0.1 i { r1.2 with pc := s.pc + 2 }) ∧
    ∀ i, decode [r0.1, r1.1, r2.1] = .ok (i, []) → StepIs s r0.1 i { r2.2 with pc := s.pc + 3 }

/-- An opcode fetch from an unhandled address reads 0x00, is reported, and executes `BRK` (45_stack_flags_system.md R224,
60_exceptions.md R249). That such a read gives 0x00 is the spec's decision D15 (D16 from 0x4020 on). -/
def Obligations.FetchFromUnhandledRunsBrk : Prop :=
  ∀ s : State, s.poweredOn = true → 0x4018 ≤ s.pc.toNat → s.pc.toNat ≤ 0x7FFF →
    ∃ t, exec .brk { s with pc := s.pc + 1, report := s.report ++ [.unhandledAddress s.pc .read] } = .next t ∧
      step s = .next { t with cyc := t.cyc + cycleCost 0x00 }

/-- A step always yields a next state; the only refusals are at launch and before the first `POWER_ON` (00_scope.md R9), which are
the spec's decisions D17 and D24. -/
def Obligations.StepAnswersNextOnceLaunched : Prop :=
  (∀ s : State, s.poweredOn = true → ∃ t, step s = .next t ∧ t.poweredOn = true) ∧
  (∀ s : State, s.poweredOn = false → step s = .refused .stepBeforePowerOn) ∧
  ∀ (pages : Nat) (prg : List Byte) (ramInit : Vector Byte 0x800),
    ((pages = 1 ∨ pages = 2) ∧ prg.length = pages * 0x4000 → ∃ t, launch pages prg ramInit = .next t ∧ t.poweredOn = false) ∧
    (¬ ((pages = 1 ∨ pages = 2) ∧ prg.length = pages * 0x4000) → launch pages prg ramInit = .refused .badCartridge)

/-- Every step keeps the data invariant: RAM and cartridge in canonical form (the model's own, entries 1 and 2), within 0x800 cells and
`PRG_PAGES * 0x4000` bytes. -/
def Obligations.StepKeepsTheInvariant : Prop :=
  ∀ s t : State, s.inv = true → step s = .next t → t.inv = true

/-- The invariant holds right after reset, and of every machine that is launched and powered on. The canonical form is the model's
own (entries 1 and 2), and so are the RAM and the cartridge of `State.reset` (entries 2 and 3). -/
def Obligations.LaunchedMachineMeetsTheInvariant : Prop :=
  State.reset.inv = true ∧
  ∀ (pages : Nat) (prg : List Byte) (ramInit : Vector Byte 0x800) (t : State),
    launch pages prg ramInit = .next t → t.inv = true ∧ (powerOn t).inv = true

/-- Each step adds the cost of the opcode byte fetched to `CYC`, and the cost depends on nothing else (70_reset_and_hazards.md R282). The
costs are open (the spec's decision D20, entry 5). -/
def Obligations.StepAddsTheCostOfItsOpcode : Prop :=
  ∀ s t : State, step s = .next t → t.cyc = s.cyc + cycleCost (busRead s.pc s).1

/-- The report and transaction streams only grow (10_state.md R34, 20_memory.md R58), and no instruction reads `CYC` or `REPORT` (R33,
R34): two states that differ only there step alike, under one and the same outside world (entry 6). -/
def Obligations.StreamsGrowAndAreNeverRead : Prop :=
  (∀ s t : State, step s = .next t → (∃ rs, t.report = s.report ++ rs) ∧ (∃ es, t.periph = s.periph ++ es)) ∧
  ∀ (s : State) (n : Nat) (rs : List Report),
    step { s with cyc := n + s.cyc, report := rs ++ s.report } =
      mapNext (fun t => { t with cyc := n + t.cyc, report := rs ++ t.report }) (step s)

/-! ## Whole-machine rules, over all instructions -/

/-- Which instructions write each flag (10_state.md R32): every other instruction leaves it. `B` is cleared by `RTI` only
(45_stack_flags_system.md R225). That `BRK` writes `B` and `I` and `PLP` not
`B` are the spec's decisions D8, D9 and D11. -/
def Obligations.OnlyTheListedInstructionsWriteAFlag : Prop :=
  ∀ (i : Instr) (s t : State), exec i s = .next t →
    (i.kind ∉ [some Mnemonic.adc, some .sbc, some .cmp, some .cpx, some .cpy, some .asl, some .lsr, some .rol, some .ror,
      some .clc, some .sec, some .plp, some .rti] → t.p.c = s.p.c) ∧
    (i.kind ∉ [some Mnemonic.lda, some .ldx, some .ldy, some .tax, some .tay, some .txa, some .tya, some .tsx, some .pla,
      some .adc, some .sbc, some .and, some .ora, some .eor, some .bit, some .cmp, some .cpx, some .cpy, some .inc, some .dec,
      some .inx, some .iny, some .dex, some .dey, some .asl, some .lsr, some .rol, some .ror, some .plp, some .rti] →
      t.p.z = s.p.z ∧ t.p.n = s.p.n) ∧
    (i.kind ∉ [some Mnemonic.sei, some .cli, some .brk, some .plp, some .rti] → t.p.i = s.p.i) ∧
    (i.kind ∉ [some Mnemonic.sed, some .cld, some .plp, some .rti] → t.p.d = s.p.d) ∧
    (i.kind ∉ [some Mnemonic.brk, some .rti] → t.p.b = s.p.b) ∧
    (i.kind ∉ [some Mnemonic.adc, some .sbc, some .bit, some .clv, some .plp, some .rti] → t.p.v = s.p.v) ∧
    (s.p.b = true → t.p.b = false → i = .rti)

/-- Which instructions write each register (10_state.md R21 to R24, 44_control_flow.md R190): every other instruction leaves it; one
that is no control transfer leaves `PC` past its own bytes. -/
def Obligations.OnlyTheListedInstructionsWriteARegister : Prop :=
  ∀ (i : Instr) (s t : State), exec i s = .next t →
    (i.kind ∉ [some Mnemonic.adc, some .sbc, some .and, some .ora, some .eor, some .asl, some .lsr, some .rol, some .ror,
      some .lda, some .pla, some .txa, some .tya] → t.a = s.a) ∧
    (i.kind ∉ [some Mnemonic.ldx, some .tax, some .tsx, some .inx, some .dex] → t.x = s.x) ∧
    (i.kind ∉ [some Mnemonic.ldy, some .tay, some .iny, some .dey] → t.y = s.y) ∧
    (i.kind ∉ [some Mnemonic.pha, some .pla, some .php, some .plp, some .jsr, some .rts, some .brk, some .rti, some .txs] →
      t.sp = s.sp) ∧
    (i.kind ∉ [some Mnemonic.jmp, some .jsr, some .rts, some .brk, some .rti, some .bpl, some .bmi, some .bvc, some .bvs,
      some .bcc, some .bcs, some .bne, some .beq] → t.pc = s.pc)

/-- Only stores, read-modify-writes and pushes change memory, and they change RAM alone: the cartridge is never written (20_memory.md
R63, R69). -/
def Obligations.OnlyStoresAndPushesChangeMemory : Prop :=
  ∀ (i : Instr) (s t : State), exec i s = .next t →
    (i.kind ∉ [some Mnemonic.sta, some .stx, some .sty, some .inc, some .dec, some .asl, some .lsr, some .rol, some .ror,
      some .pha, some .php, some .jsr, some .brk] → MemoryKept s t) ∧
    t.prg = s.prg ∧ t.prgPages = s.prgPages ∧ ∀ b : Addr, 0x2000 ≤ b.toNat → t.peek b = s.peek b

/-! ## Power-on -/

/-- `POWER_ON` (70_reset_and_hazards.md R270, R271, 10_state.md R36), from any state: the registers and flags, `PC` from the vector,
RAM and the streams kept; and it leaves `State.reset` as it is. That `C Z D V N` are 0 is the spec's decision D4, that `REPORT` and
RAM are kept D23 and D18, that `CYC` is `CYC_INIT` D21; that the peripheral transaction stream is kept is the model's choice (entry
7). The RAM and the cartridge of `State.reset`, and so its `PC`, are the model's
choice (entries 2 and 3). -/
def Obligations.PowerOnEstablishesTheResetState : Prop :=
  powerOn State.reset = State.reset ∧ State.reset.report = [] ∧
  ∀ s : State, ∃ lo hi, s.peek 0xFFFC = some lo ∧ s.peek 0xFFFD = some hi ∧
    powerOn s = { s with
      a := 0x00, x := 0x00, y := 0x00, sp := 0xFD, pc := word hi lo
      p := { c := false, z := false, i := true, d := false, b := true, v := false, n := false }
      cyc := Config.cycInit, poweredOn := true } ∧
    StatusImage (powerOn s).p (powerOn s).p.b 0x34 ∧ MemoryKept s (powerOn s)

/-! ## The bus -/

/-- RAM (20_memory.md R54): any two addresses congruent mod 0x800 below 0x2000 read and write the same byte, with no report and no
transaction; no other byte changes; an unwritten cell holds its `RAM_INIT` byte. -/
def Obligations.RamIsMirroredFourTimes : Prop :=
  (∀ (s : State) (a b : Addr) (v : Byte), s.inv = true → SameCell a b →
    busRead a s = busRead b s ∧ (busRead a s).2 = s ∧
    busRead b (busWrite a v s) = (v, busWrite a v s) ∧ MemoryKeptBut a s (busWrite a v s) ∧
    StreamsKept s (busWrite a v s)) ∧
  ∀ (pages : Nat) (prg : List Byte) (ramInit : Vector Byte 0x800) (t : State), launch pages prg ramInit = .next t →
    ∀ a : Addr, a.toNat ≤ 0x1FFF → (busRead a (powerOn t)).1 = ramInit[a.toNat % 0x800]'(Nat.mod_lt _ (by decide))

/-- `BusWrite` (20_memory.md R53): what a write does in each range of addresses, and that it changes nothing else. -/
def Obligations.BusWriteByRange : Prop :=
  ∀ (a : Addr) (v : Byte) (s : State), s.inv = true →
    Stored a v s (busWrite a v s) ∧ RegistersKept s (busWrite a v s) ∧ (busWrite a v s).p = s.p ∧ RestKept s (busWrite a v s)

/-- `MapperWrite` (R63): reported, dropped. -/
def Obligations.MapperWritesAreReportedAndDropped : Prop :=
  (∀ (a : Addr) (v : Byte) (s : State), 0x4020 ≤ a.toNat →
    busWrite a v s = { s with report := s.report ++ [.unsupportedWrite a v] }) ∧
  ∀ s t : State, step s = .next t → t.prg = s.prg

/-- A peripheral read (R55, R57, R58): the register the window's mirroring gives, one transaction, the external byte; nothing else.
That the byte is the answer of `PERIPH_ORACLE` is the spec's decision D19 (entry 6). -/
def Obligations.PeripheralReadIsOneTransaction : Prop :=
  ∀ (a : Addr) (reg : PeriphReg) (s : State), PeriphAt a reg →
    busRead a s = (Config.periphOracle (s.periph ++ [.read reg]) reg, { s with periph := s.periph ++ [.read reg] })

/-- Window G is mirrored every 8 bytes (R55): addresses congruent mod 8 in 0x2000 to 0x3FFF read and write alike, and reach the
register at `0x2000 + (address mod 8)`. -/
def Obligations.WindowGIsMirroredEveryEightBytes : Prop :=
  ∀ (a : Addr) (v : Byte) (s : State), 0x2000 ≤ a.toNat → a.toNat ≤ 0x3FFF →
    ∃ k : Fin 8, k.val = a.toNat % 8 ∧
      busRead a s = busRead (0x2000 + BitVec.ofNat 16 k.val) s ∧ busWrite a v s = busWrite (0x2000 + BitVec.ofNat 16 k.val) v s ∧
      (busRead a s).2.periph = s.periph ++ [.read (.g k)] ∧ (busWrite a v s).periph = s.periph ++ [.write (.g k) v]

/-- An access with no handler (R56, R62): reported once; a read returns `UNHANDLED_READ_VALUE`, a write does nothing. The value 0x00 and
the range from 0x4020 are the spec's decisions D15 and D16. -/
def Obligations.UnhandledAccessesAreReported : Prop :=
  (∀ (a : Addr) (s : State), 0x4018 ≤ a.toNat → a.toNat ≤ 0x7FFF →
    busRead a s = (0x00, { s with report := s.report ++ [.unhandledAddress a .read] })) ∧
  ∀ (a : Addr) (v : Byte) (s : State), 0x4018 ≤ a.toNat → a.toNat ≤ 0x401F →
    busWrite a v s = { s with report := s.report ++ [.unhandledAddress a .write] }

/-- The mapper's program pages (R61), for the machine a launch makes from a list of bytes: 0x8000 to 0xBFFF is page 0; 0xC000 to
0xFFFF is page 0 again with one page and page 1 with two; no side effect. -/
def Obligations.MapperShowsTheProgramPages : Prop :=
  ∀ (pages : Nat) (prg : List Byte) (ramInit : Vector Byte 0x800) (t : State), launch pages prg ramInit = .next t →
    ∀ k : Nat, k < 0x4000 →
      busRead (0x8000 + BitVec.ofNat 16 k) t = (prg.getD k 0, t) ∧
      (pages = 1 → busRead (0xC000 + BitVec.ofNat 16 k) t = (prg.getD k 0, t)) ∧
      (pages = 2 → busRead (0xC000 + BitVec.ofNat 16 k) t = (prg.getD (0x4000 + k) 0, t))

/-- The 16-bit read (R64, R66): the low byte from the address, the high byte from the address plus 1 modulo 0x10000, with no page wrap;
where a report or a transaction is made, the low byte's comes first. The order and the missing wrap are the spec's decisions D12, D13. -/
def Obligations.SixteenBitReadIsLittleEndian : Prop :=
  ∀ (a : Addr) (s : State),
    (memRead16 a s).1.toNat =
      (busRead (a + 1) (busRead a s).2).1.toNat * 256 + (busRead a s).1.toNat ∧
    (memRead16 a s).2 = (busRead (a + 1) (busRead a s).2).2 ∧
    ∀ lo hi, s.peek a = some lo → s.peek (a + 1) = some hi → memRead16 a s = (word hi lo, s)

/-! ## The stack -/

/-- `Push8` and `Pop8` (10_state.md R30): a push writes at `0x100 + SP` and then decrements `SP`, a pop increments it and then reads;
256 pushes bring `SP` back, so that the next one overwrites the first. -/
def Obligations.PushAndPop : Prop :=
  (∀ (v : Byte) (s : State), s.inv = true →
    (stackAddr s.sp).toNat = 0x100 + s.sp.toNat ∧
    Holds (push8 v s) (stackAddr s.sp) v ∧ MemoryKeptBut (stackAddr s.sp) s (push8 v s) ∧
    push8 v s = { s with sp := s.sp - 1, ram := (push8 v s).ram }) ∧
  (∀ s : State, ∃ v, s.peek (stackAddr (s.sp + 1)) = some v ∧ pop8 s = (v, { s with sp := s.sp + 1 })) ∧
  ∀ (vs : List Byte) (s : State), vs.length = 256 → (vs.foldl (fun t v => push8 v t) s).sp = s.sp

/-- `Push16` and `Pop16` (R31): high byte at `0x100 + SP`, low byte at `0x100 + ((SP - 1) mod 0x100)`, also across the wrap; `Pop16`
returns the value pushed and restores `SP`. The spec marks the wrap case as derived. -/
def Obligations.PushSixteenThenPopSixteen : Prop :=
  ∀ (v : Addr) (s : State), s.inv = true →
    Holds (push16 v s) (stackAddr s.sp) (hi8 v) ∧ Holds (push16 v s) (stackAddr (s.sp - 1)) (lo8 v) ∧
    (push16 v s).sp = s.sp - 2 ∧ pop16 (push16 v s) = (v, { push16 v s with sp := s.sp })

/-- The byte image of the status word (R27) and the loads from a byte (R28): bit 5 of an image is 1, bit 5 of a byte loaded is
discarded (the spec's decision D26). -/
def Obligations.StatusImageAndLoad : Prop :=
  (∀ (p : Status) (b4 : Bool), StatusImage p b4 (pByte p b4)) ∧
  (∀ (p : Status) (v : Byte), p.load v false = loaded v ∧ p.load v true = { loaded v with b := p.b }) ∧
  ∀ p : Status, (p.load (pByte p p.b) false) = p

/-! ## Addressing modes -/

/-- The zero-page modes (40_addressing_modes.md R114 to R116): the sums wrap within page 0, and nothing changes. -/
def Obligations.ZeroPageAddresses : Prop :=
  ∀ (b : Byte) (s : State),
    (resolve (.zp b) s).1.toNat = b.toNat ∧
    (resolve (.zpx b) s).1.toNat = (b.toNat + s.x.toNat) % 0x100 ∧
    (resolve (.zpy b) s).1.toNat = (b.toNat + s.y.toNat) % 0x100 ∧
    (resolve (.zp b) s).2 = s ∧ (resolve (.zpx b) s).2 = s ∧ (resolve (.zpy b) s).2 = s

/-- The absolute modes (R117 to R119): the index is added with full carry modulo 0x10000 (the wrap of the
address space is marked as derived), and nothing changes. -/
def Obligations.AbsoluteAddresses : Prop :=
  ∀ (w : Addr) (s : State),
    (resolve (.abs w) s).1 = w ∧
    (resolve (.absx w) s).1.toNat = (w.toNat + s.x.toNat) % 0x10000 ∧
    (resolve (.absy w) s).1.toNat = (w.toNat + s.y.toNat) % 0x10000 ∧
    (resolve (.abs w) s).2 = s ∧ (resolve (.absx w) s).2 = s ∧ (resolve (.absy w) s).2 = s

/-- The indirect modes (R121, R123): the pointer's address wraps in page 0, its high byte is at the next address, 0x0100 after 0x00FF
(the spec's decision D12); `Y` is added to the pointer modulo 0x10000; nothing changes (R110). -/
def Obligations.IndirectAddresses : Prop :=
  ∀ (b : Byte) (s : State),
    (∃ lo hi, s.peek (BitVec.ofNat 16 ((b.toNat + s.x.toNat) % 0x100)) = some lo ∧
      s.peek (BitVec.ofNat 16 ((b.toNat + s.x.toNat) % 0x100 + 1)) = some hi ∧
      resolve (.indx b) s = (word hi lo, s)) ∧
    ∃ lo hi, s.peek (BitVec.ofNat 16 b.toNat) = some lo ∧ s.peek (BitVec.ofNat 16 (b.toNat + 1)) = some hi ∧
      (resolve (.indy b) s).1.toNat = (hi.toNat * 256 + lo.toNat + s.y.toNat) % 0x10000 ∧ (resolve (.indy b) s).2 = s

/-- The operand an instruction reads (R113 and 20_memory.md R52): the immediate byte with no further access; else the byte behind the
effective address: memory's with no side effect, a peripheral's with its transaction, 0x00 with a report where nothing is (the
spec's decisions D15, D16, D19). -/
def Obligations.OperandByForm : Prop :=
  (∀ (b : Byte) (s : State), readOperand (.imm b) s = (b, s)) ∧
  ∀ (m : EaMode) (s : State),
    (∀ v, s.peek (resolve m s).1 = some v → readOperand (.mem m) s = (v, s)) ∧
    (∀ reg, PeriphAt (resolve m s).1 reg → readOperand (.mem m) s =
      (Config.periphOracle (s.periph ++ [.read reg]) reg, { s with periph := s.periph ++ [.read reg] })) ∧
    (s.peek (resolve m s).1 = none → (∀ reg, ¬ PeriphAt (resolve m s).1 reg) → readOperand (.mem m) s =
      (0x00, { s with report := s.report ++ [.unhandledAddress (resolve m s).1 .read] }))

/-! ## Load, store, transfer -/

/-- `LDA`, `LDX`, `LDY` (41_load_store_transfer.md R130 to R132), every form. -/
def Obligations.LoadsSetTheRegisterAndZN : Prop :=
  ∀ o : Src,
    EncodedBy (.lda o) o.mode o.bytes [(.imm, 0xA9), (.zp, 0xA5), (.zpx, 0xB5), (.abs, 0xAD), (.absx, 0xBD), (.absy, 0xB9),
      (.indx, 0xA1), (.indy, 0xB1)] ∧
    EncodedBy (.ldx o) o.mode o.bytes [(.imm, 0xA2), (.zp, 0xA6), (.zpy, 0xB6), (.abs, 0xAE), (.absy, 0xBE)] ∧
    EncodedBy (.ldy o) o.mode o.bytes [(.imm, 0xA0), (.zp, 0xA4), (.zpx, 0xB4), (.abs, 0xAC), (.absx, 0xBC)] ∧
    LoadsInto (.lda o) o (fun s v => { s with a := v }) ∧
    LoadsInto (.ldx o) o (fun s v => { s with x := v }) ∧
    LoadsInto (.ldy o) o (fun s v => { s with y := v })

/-- `STA`, `STX`, `STY` (R133 to R135), every form: one write of the register at the effective address, no flag, no register. -/
def Obligations.StoresWriteTheRegister : Prop :=
  ∀ m : EaMode,
    EncodedBy (.sta m) m.mode m.bytes [(.zp, 0x85), (.zpx, 0x95), (.abs, 0x8D), (.absx, 0x9D), (.absy, 0x99), (.indx, 0x81),
      (.indy, 0x91)] ∧
    EncodedBy (.stx m) m.mode m.bytes [(.zp, 0x86), (.zpy, 0x96), (.abs, 0x8E)] ∧
    EncodedBy (.sty m) m.mode m.bytes [(.zp, 0x84), (.zpx, 0x94), (.abs, 0x8C)] ∧
    StoresByte (.sta m) m State.a ∧ StoresByte (.stx m) m State.x ∧ StoresByte (.sty m) m State.y

/-- `TAX TAY TXA TYA TSX` (R136 to R140) and `TXS` (R141), which writes no flag and is the only way, other than pushes and pops, to
change `SP`. -/
def Obligations.TransfersCopyTheRegister : Prop :=
  Transfers .tax 0xAA State.a (fun s v => { s with x := v }) ∧
  Transfers .tay 0xA8 State.a (fun s v => { s with y := v }) ∧
  Transfers .txa 0x8A State.x (fun s v => { s with a := v }) ∧
  Transfers .tya 0x98 State.y (fun s v => { s with a := v }) ∧
  Transfers .tsx 0xBA State.sp (fun s v => { s with x := v }) ∧
  (encode .txs = some [0x9A] ∧ ∀ s : State, ∃ t, exec .txs s = .next t ∧ t = { s with sp := s.x } ∧ MemoryKept s t) ∧
  ∀ (i : Instr) (s t : State), exec i s = .next t → t.sp ≠ s.sp → i.kind ∈ [some Mnemonic.txs, some .pha, some .pla, some .php,
    some .plp, some .jsr, some .rts, some .brk, some .rti]

/-! ## Arithmetic and logic -/

/-- The adder (42_arithmetic_logic.md R150): the result, the carry out of bit 7, and the overflow, both as the sign rule and as the
signed sum leaving -128 to +127 (R151). -/
def Obligations.AdderResultCarryAndOverflow : Prop :=
  ∀ (a b : Byte) (cin : Bool),
    (addC a b cin).r.toNat = (a.toNat + b.toNat + cin.toNat) % 0x100 ∧
    (addC a b cin).c = decide (0xFF < a.toNat + b.toNat + cin.toNat) ∧
    ((addC a b cin).v = true ↔ a.msb = b.msb ∧ (addC a b cin).r.msb ≠ a.msb) ∧
    ((addC a b cin).v = true ↔ a.toInt + b.toInt + cin.toNat < -128 ∨ 127 < a.toInt + b.toInt + cin.toNat)

/-- `ADC` (R153), every form and whatever `D` is (R152, the spec's decision D5): the sum modulo 256, `C` the unsigned and `V` the
signed outcome (R151), `Z` and `N` of the result; nothing else. -/
def Obligations.AdcAddsWithCarry : Prop :=
  ∀ (o : Src) (s : State),
    EncodedBy (.adc o) o.mode o.bytes [(.imm, 0x69), (.zp, 0x65), (.zpx, 0x75), (.abs, 0x6D), (.absx, 0x7D), (.absy, 0x79),
      (.indx, 0x61), (.indy, 0x71)] ∧
    let m := (readOperand o s).1
    let total := s.a.toNat + m.toNat + s.p.c.toNat
    let signed := s.a.toInt + m.toInt + s.p.c.toNat
    ∃ t, exec (.adc o) s = .next t ∧
      t = { s with
        a := BitVec.ofNat 8 total
        p := withZN { s.p with c := decide (0xFF < total), v := decide (signed < -128 ∨ 127 < signed) } (BitVec.ofNat 8 total)
        report := (readOperand o s).2.report, periph := (readOperand o s).2.periph } ∧
      MemoryKept s t

/-- `SBC` (R154), every form and whatever `D` is (R152, D5): `A - m - (1 - C)` modulo 256, `C` set iff there was no borrow, `V` iff
the signed difference leaves -128 to +127; nothing else. -/
def Obligations.SbcSubtractsWithBorrow : Prop :=
  ∀ (o : Src) (s : State),
    EncodedBy (.sbc o) o.mode o.bytes [(.imm, 0xE9), (.zp, 0xE5), (.zpx, 0xF5), (.abs, 0xED), (.absx, 0xFD), (.absy, 0xF9),
      (.indx, 0xE1), (.indy, 0xF1)] ∧
    let m := (readOperand o s).1
    let borrow := 1 - s.p.c.toNat
    let signed := s.a.toInt - m.toInt - borrow
    let r := BitVec.ofNat 8 (s.a.toNat + 256 - m.toNat - borrow)
    ∃ t, exec (.sbc o) s = .next t ∧
      t = { s with
        a := r
        p := withZN { s.p with c := decide (m.toNat + borrow ≤ s.a.toNat), v := decide (signed < -128 ∨ 127 < signed) } r
        report := (readOperand o s).2.report, periph := (readOperand o s).2.periph } ∧
      MemoryKept s t

/-- The decimal flag has no effect on `ADC` and `SBC` (R152, the spec's decision D5): with `D` the other way they do the same. The
two states have equal transaction histories and so, in the model, one and the same outside world (entry 6). -/
def Obligations.DecimalFlagIsIgnored : Prop :=
  ∀ (o : Src) (s : State) (d : Bool),
    exec (.adc o) { s with p := { s.p with d := d } } =
      mapNext (fun t => { t with p := { t.p with d := d } }) (exec (.adc o) s) ∧
    exec (.sbc o) { s with p := { s.p with d := d } } =
      mapNext (fun t => { t with p := { t.p with d := d } }) (exec (.sbc o) s)

/-- `AND`, `ORA`, `EOR` (R155 to R157), every form, bit by bit. -/
def Obligations.LogicCombinesBitwise : Prop :=
  ∀ o : Src,
    EncodedBy (.and o) o.mode o.bytes [(.imm, 0x29), (.zp, 0x25), (.zpx, 0x35), (.abs, 0x2D), (.absx, 0x3D), (.absy, 0x39),
      (.indx, 0x21), (.indy, 0x31)] ∧
    EncodedBy (.ora o) o.mode o.bytes [(.imm, 0x09), (.zp, 0x05), (.zpx, 0x15), (.abs, 0x0D), (.absx, 0x1D), (.absy, 0x19),
      (.indx, 0x01), (.indy, 0x11)] ∧
    EncodedBy (.eor o) o.mode o.bytes [(.imm, 0x49), (.zp, 0x45), (.zpx, 0x55), (.abs, 0x4D), (.absx, 0x5D), (.absy, 0x59),
      (.indx, 0x41), (.indy, 0x51)] ∧
    CombinesIntoA (.and o) o (fun a m => a &&& m) ∧ CombinesIntoA (.ora o) o (fun a m => a ||| m) ∧
    CombinesIntoA (.eor o) o (fun a m => a ^^^ m)

/-- `BIT` (R158), both forms: `Z` from the and, `N` and `V` from bits 7 and 6 of the operand; `A` and `C` unchanged. -/
def Obligations.BitTestsTheOperand : Prop :=
  ∀ (m : EaMode) (s : State),
    EncodedBy (.bit m) m.mode m.bytes [(.zp, 0x24), (.abs, 0x2C)] ∧
    let v := (readOperand (.mem m) s).1
    ∃ t, exec (.bit m) s = .next t ∧
      t = { s with
        p := { s.p with z := decide ((s.a &&& v).toNat = 0), n := decide (128 ≤ v.toNat), v := decide (64 ≤ v.toNat % 128) }
        report := (readOperand (.mem m) s).2.report, periph := (readOperand (.mem m) s).2.periph } ∧
      MemoryKept s t

/-- `CMP`, `CPX`, `CPY` (R159 to R162), every form. -/
def Obligations.ComparesSetCZN : Prop :=
  ∀ o : Src,
    EncodedBy (.cmp o) o.mode o.bytes [(.imm, 0xC9), (.zp, 0xC5), (.zpx, 0xD5), (.abs, 0xCD), (.absx, 0xDD), (.absy, 0xD9),
      (.indx, 0xC1), (.indy, 0xD1)] ∧
    EncodedBy (.cpx o) o.mode o.bytes [(.imm, 0xE0), (.zp, 0xE4), (.abs, 0xEC)] ∧
    EncodedBy (.cpy o) o.mode o.bytes [(.imm, 0xC0), (.zp, 0xC4), (.abs, 0xCC)] ∧
    Compares (.cmp o) o State.a ∧ Compares (.cpx o) o State.x ∧ Compares (.cpy o) o State.y

/-- `INC` and `DEC` (R163, R164), every form: one read, one write of the byte plus or minus 1 modulo 256, `Z` and `N` of the byte
written, also where the write is dropped. -/
def Obligations.IncDecRewriteMemory : Prop :=
  ∀ m : EaMode,
    EncodedBy (.inc m) m.mode m.bytes [(.zp, 0xE6), (.zpx, 0xF6), (.abs, 0xEE), (.absx, 0xFE)] ∧
    EncodedBy (.dec m) m.mode m.bytes [(.zp, 0xC6), (.zpx, 0xD6), (.abs, 0xCE), (.absx, 0xDE)] ∧
    Rewrites (.inc m) m (fun _ v => BitVec.ofNat 8 (v.toNat + 1)) (fun s v => withZN s.p (BitVec.ofNat 8 (v.toNat + 1))) ∧
    Rewrites (.dec m) m (fun _ v => BitVec.ofNat 8 (v.toNat + 255)) (fun s v => withZN s.p (BitVec.ofNat 8 (v.toNat + 255)))

/-- `INX INY DEX DEY` (R165 to R168): plus or minus 1 modulo 256; `C` and `V` unchanged. -/
def Obligations.IndexIncrementsWrap : Prop :=
  Transfers .inx 0xE8 (fun s => BitVec.ofNat 8 (s.x.toNat + 1)) (fun s v => { s with x := v }) ∧
  Transfers .iny 0xC8 (fun s => BitVec.ofNat 8 (s.y.toNat + 1)) (fun s v => { s with y := v }) ∧
  Transfers .dex 0xCA (fun s => BitVec.ofNat 8 (s.x.toNat + 255)) (fun s v => { s with x := v }) ∧
  Transfers .dey 0x88 (fun s => BitVec.ofNat 8 (s.y.toNat + 255)) (fun s v => { s with y := v })

/-! ## Shifts -/

/-- `ASL`, `LSR`, `ROL`, `ROR` (43_shift_rotate.md R180 to R184), every form. -/
def Obligations.ShiftsMoveOneBit : Prop :=
  Shifts .asl .asl [(.acc, 0x0A), (.zp, 0x06), (.zpx, 0x16), (.abs, 0x0E), (.absx, 0x1E)] ∧
  Shifts .lsr .lsr [(.acc, 0x4A), (.zp, 0x46), (.zpx, 0x56), (.abs, 0x4E), (.absx, 0x5E)] ∧
  Shifts .rol .rol [(.acc, 0x2A), (.zp, 0x26), (.zpx, 0x36), (.abs, 0x2E), (.absx, 0x3E)] ∧
  Shifts .ror .ror [(.acc, 0x6A), (.zp, 0x66), (.zpx, 0x76), (.abs, 0x6E), (.absx, 0x7E)]

/-- `ROL A` is a 9-bit rotation of (`C`, byte): nine of them restore the byte and the carry (R183), and so do nine `ROR A`. -/
def Obligations.NineRotatesRestore : Prop :=
  ∀ s : State,
    times 9 (.rol .acc) s = .next { s with p := withZN s.p s.a } ∧ times 9 (.ror .acc) s = .next { s with p := withZN s.p s.a }

/-! ## Control flow -/

/-- `JMP` (44_control_flow.md R191), both forms: `PC` is the operand, or the 16-bit value at the pointer, whose high byte is at the next
address (the spec's decision D12); no flag, no register, no memory. -/
def Obligations.JmpSetsPc : Prop :=
  ∀ (w : Addr) (s : State),
    EncodedBy (.jmp (.abs w)) .abs [lo8 w, hi8 w] [(.abs, 0x4C), (.ind, 0x6C)] ∧
    EncodedBy (.jmp (.ind w)) .ind [lo8 w, hi8 w] [(.abs, 0x4C), (.ind, 0x6C)] ∧
    (∃ t, exec (.jmp (.abs w)) s = .next t ∧ t = { s with pc := w } ∧ MemoryKept s t) ∧
    (∃ t, exec (.jmp (.ind w)) s = .next t ∧ MemoryKept s t ∧
      t = { s with pc := (memRead16 w s).1, report := (memRead16 w s).2.report, periph := (memRead16 w s).2.periph }) ∧
    ∀ lo hi, s.peek w = some lo → s.peek (w + 1) = some hi →
      exec (.jmp (.ind w)) s = .next { s with pc := word hi lo }

/-- `JSR` (R192): pushes the return address minus 1, high byte first, and jumps; no flag, no other register. `PC` is the return
address here, `P + 3`. As a whole step it jumps to the target as it was before the push, wherever the `JSR` itself lies. -/
def Obligations.JsrPushesTheReturnAddress : Prop :=
  ∀ target : Addr, encode (.jsr target) = some [0x20, lo8 target, hi8 target] ∧
    (∀ s : State, s.poweredOn = true → s.peek s.pc = some 0x20 → s.peek (s.pc + 1) = some (lo8 target) →
      s.peek (s.pc + 2) = some (hi8 target) → ∃ t, step s = .next t ∧ t.pc = target) ∧
    ∀ s : State, s.inv = true → ∃ t, exec (.jsr target) s = .next t ∧ t.pc = target ∧ t.sp = s.sp - 2 ∧
      Holds t (stackAddr s.sp) (hi8 (s.pc - 1)) ∧ Holds t (stackAddr (s.sp - 1)) (lo8 (s.pc - 1)) ∧
      (∀ b, ¬ SameCell (stackAddr s.sp) b → ¬ SameCell (stackAddr (s.sp - 1)) b → t.peek b = s.peek b) ∧
      t.a = s.a ∧ t.x = s.x ∧ t.y = s.y ∧ t.p = s.p ∧ StreamsKept s t ∧ RestKept s t

/-- `RTS` (R193): pops two bytes, low byte first, and adds 1; no flag, no memory. -/
def Obligations.RtsPopsAndAddsOne : Prop :=
  encode .rts = some [0x60] ∧
  ∀ s : State, ∃ lo hi t, s.peek (stackAddr (s.sp + 1)) = some lo ∧ s.peek (stackAddr (s.sp + 2)) = some hi ∧
    exec .rts s = .next t ∧ t = { s with sp := s.sp + 2, pc := word hi lo + 1 } ∧ MemoryKept s t

/-- The pairing law (R194), over two steps: `JSR` at `P` and an `RTS` as the first instruction of the subroutine leave `PC = P + 3`
and `SP` as before the call, for every `SP`, and the two bytes pushed stay in RAM; the subroutine's byte is looked at after the push.
The spec marks the law's extension to every `SP` as derived. -/
def Obligations.JsrThenRtsResumesAfterTheCall : Prop :=
  ∀ (s : State) (target : Addr), s.poweredOn = true → s.inv = true →
    s.peek s.pc = some 0x20 → s.peek (s.pc + 1) = some (lo8 target) → s.peek (s.pc + 2) = some (hi8 target) →
    ∃ t, step s = .next t ∧ t.pc = target ∧
      (t.peek target = some 0x60 → ∃ u, step t = .next u ∧ u.pc = s.pc + 3 ∧ u.sp = s.sp ∧
        u.a = s.a ∧ u.x = s.x ∧ u.y = s.y ∧ u.p = s.p ∧ MemoryKept t u ∧ StreamsKept s u ∧
        Holds u (stackAddr s.sp) (hi8 (s.pc + 2)) ∧ Holds u (stackAddr (s.sp - 1)) (lo8 (s.pc + 2)))

/-- The eight branches (R195 to R204). That the offset counts from the next instruction is the spec's decision D22. -/
def Obligations.BranchesTestOneFlag : Prop :=
  Branches .bpl 0x10 (fun p => !p.n) ∧ Branches .bmi 0x30 (fun p => p.n) ∧
  Branches .bvc 0x50 (fun p => !p.v) ∧ Branches .bvs 0x70 (fun p => p.v) ∧
  Branches .bcc 0x90 (fun p => !p.c) ∧ Branches .bcs 0xB0 (fun p => p.c) ∧
  Branches .bne 0xD0 (fun p => !p.z) ∧ Branches .beq 0xF0 (fun p => p.z)

/-! ## Stack, flags, system -/

/-- `PHA` (45_stack_flags_system.md R210): one byte pushed, `A`; no flag. -/
def Obligations.PhaPushesA : Prop := PushesByte .pha 0x48 (fun s v => v = s.a)

/-- `PHP` (R212): the status byte pushed with bits 4 and 5 set (the spec's decision D10), the stored break flag unchanged. -/
def Obligations.PhpPushesTheStatus : Prop := PushesByte .php 0x08 (fun s v => StatusImage s.p true v)

/-- `PLA` (R211): `A` from the stack, `Z` and `N` of it. -/
def Obligations.PlaPullsA : Prop :=
  encode .pla = some [0x68] ∧
  ∀ s : State, ∃ v t, s.peek (stackAddr (s.sp + 1)) = some v ∧ exec .pla s = .next t ∧
    t = { s with a := v, sp := s.sp + 1, p := withZN s.p v } ∧ MemoryKept s t

/-- `PLP` (R213): six flags from the stack, the break flag kept (`PLP_B_POLICY = keep`, the spec's decision D11). -/
def Obligations.PlpPullsTheStatus : Prop :=
  encode .plp = some [0x28] ∧
  ∀ s : State, ∃ v t, s.peek (stackAddr (s.sp + 1)) = some v ∧ exec .plp s = .next t ∧
    t = { s with sp := s.sp + 1, p := { loaded v with b := s.p.b } } ∧ MemoryKept s t

/-- `CLC SEC CLI SEI CLD SED CLV` (R214 to R220): exactly one flag. No instruction sets `V` alone: it becomes 1 only through `ADC`,
`SBC`, `BIT`, `PLP` and `RTI` (R220). -/
def Obligations.FlagInstructionsWriteOneFlag : Prop :=
  SetsFlag .clc 0x18 (fun p => { p with c := false }) ∧ SetsFlag .sec 0x38 (fun p => { p with c := true }) ∧
  SetsFlag .cli 0x58 (fun p => { p with i := false }) ∧ SetsFlag .sei 0x78 (fun p => { p with i := true }) ∧
  SetsFlag .cld 0xD8 (fun p => { p with d := false }) ∧ SetsFlag .sed 0xF8 (fun p => { p with d := true }) ∧
  SetsFlag .clv 0xB8 (fun p => { p with v := false }) ∧
  ∀ (i : Instr) (s t : State), exec i s = .next t → s.p.v = false → t.p.v = true →
    i.kind ∈ [some Mnemonic.adc, some .sbc, some .bit, some .plp, some .rti]

/-- `NOP` (R221) as a whole step: `PC` is `P + 1`, `CYC` has grown by its cost, nothing else changes. -/
def Obligations.NopOnlyAdvances : Prop :=
  encode .nop = some [0xEA] ∧ (∀ s : State, exec .nop s = .next s) ∧
  ∀ s : State, s.poweredOn = true → s.peek s.pc = some 0xEA →
    step s = .next { s with pc := s.pc + 1, cyc := s.cyc + cycleCost 0xEA }

/-- `BRK` (R224, 60_exceptions.md R247): three bytes pushed, the return address `PC` and the status byte with bits 4 and 5 set and `I`
as before; `B` and `I` set; `PC` from the vector at 0xFFFE; nothing else. That the pushed `PC` is `P + 1`, that `I` and the stored `B`
are set are the spec's decisions D7, D8, D9. -/
def Obligations.BrkTakesTheTrap : Prop :=
  encode .brk = some [0x00] ∧
  ∀ s : State, s.inv = true → ∃ t status lo hi, exec .brk s = .next t ∧
    s.peek 0xFFFE = some lo ∧ s.peek 0xFFFF = some hi ∧ t.pc = word hi lo ∧ t.sp = s.sp - 3 ∧
    StatusImage s.p true status ∧
    Holds t (stackAddr s.sp) (hi8 s.pc) ∧ Holds t (stackAddr (s.sp - 1)) (lo8 s.pc) ∧ Holds t (stackAddr (s.sp - 2)) status ∧
    (∀ b, ¬ SameCell (stackAddr s.sp) b → ¬ SameCell (stackAddr (s.sp - 1)) b → ¬ SameCell (stackAddr (s.sp - 2)) b →
      t.peek b = s.peek b) ∧
    t.p = { s.p with b := true, i := true } ∧ t.a = s.a ∧ t.x = s.x ∧ t.y = s.y ∧ StreamsKept s t ∧ RestKept s t

/-- `RTI` (R225, R248): all seven stored flags from the popped byte, then `PC`, low byte first, with no adjustment. -/
def Obligations.RtiRestoresStatusAndPc : Prop :=
  encode .rti = some [0x40] ∧
  ∀ s : State, ∃ status lo hi t, s.peek (stackAddr (s.sp + 1)) = some status ∧ s.peek (stackAddr (s.sp + 2)) = some lo ∧
    s.peek (stackAddr (s.sp + 3)) = some hi ∧ exec .rti s = .next t ∧
    t = { s with sp := s.sp + 3, p := loaded status, pc := word hi lo } ∧ MemoryKept s t

/-- The `BRK`/`RTI` law (R222), over two steps: a `BRK` at `P` and an `RTI` as the first instruction of the handler leave `PC = P + 1`
(the spec's decision D7), `SP` and `C Z I D V N` as before, and `B` set. -/
def Obligations.BrkThenRtiRestores : Prop :=
  ∀ s : State, s.poweredOn = true → s.inv = true → s.peek s.pc = some 0x00 →
    ∃ t, step s = .next t ∧
      (t.peek t.pc = some 0x40 → ∃ u, step t = .next u ∧ u.pc = s.pc + 1 ∧ u.sp = s.sp ∧ u.p = { s.p with b := true } ∧
        u.a = s.a ∧ u.x = s.x ∧ u.y = s.y ∧ MemoryKept t u ∧ StreamsKept s u)

/-- An unimplemented opcode (R226, 30_encoding.md R98), as a whole step: one report, `PC` is `P + 1` (one byte is the spec's decision
D2), the cost, nothing else; and a byte is one iff it is on R98's list. -/
def Obligations.UnimplementedOpcodeIsAReportedNoOp : Prop :=
  ∀ op : Byte,
    (∀ s : State, exec (.unimpl op) s = .next { s with report := s.report ++ [.unsupportedOpcode op] }) ∧
    (∀ rest, decode (op :: rest) = .ok (.unimpl op, rest) ↔ op ∈ unimplementedOpcodes) ∧
    ∀ s : State, op ∈ unimplementedOpcodes → s.poweredOn = true → s.peek s.pc = some op →
      step s = .next { s with pc := s.pc + 1, report := s.report ++ [.unsupportedOpcode op], cyc := s.cyc + cycleCost op }
end

