-- ==== Sys2Proof/Laws/Bits.lean ====
section
/-! SUPPORT. The two bytes of a word, and extensions as numbers. -/

namespace Sys2Proof

@[simp] theorem word_hi8_lo8 (w : Addr) : word (hi8 w) (lo8 w) = w := by
  apply BitVec.eq_of_toNat_eq
  simp only [hi8, lo8, word, BitVec.toNat_append, BitVec.toNat_setWidth, BitVec.toNat_ushiftRight]
  rw [← Nat.shiftLeft_add_eq_or_of_lt (Nat.mod_lt _ (by decide)), Nat.shiftLeft_eq, Nat.shiftRight_eq_div_pow]
  have := w.isLt
  omega

@[simp] theorem lo8_word (hi lo : Byte) : lo8 (word hi lo) = lo := by
  apply BitVec.eq_of_toNat_eq
  simp only [lo8, word, BitVec.toNat_setWidth, BitVec.toNat_append]
  rw [← Nat.shiftLeft_add_eq_or_of_lt lo.isLt, Nat.shiftLeft_eq]
  have := lo.isLt
  omega

@[simp] theorem hi8_word (hi lo : Byte) : hi8 (word hi lo) = hi := by
  apply BitVec.eq_of_toNat_eq
  simp only [hi8, word, BitVec.toNat_setWidth, BitVec.toNat_ushiftRight, BitVec.toNat_append]
  rw [← Nat.shiftLeft_add_eq_or_of_lt lo.isLt, Nat.shiftLeft_eq, Nat.shiftRight_eq_div_pow]
  have := lo.isLt
  have := hi.isLt
  omega

/-- `word(hi, lo) = hi * 256 + lo` (R7). -/
theorem word_toNat (hi lo : Byte) : (word hi lo).toNat = hi.toNat * 256 + lo.toNat := by
  simp only [word, BitVec.toNat_append]
  rw [← Nat.shiftLeft_add_eq_or_of_lt lo.isLt, Nat.shiftLeft_eq]

theorem zext16_toNat (b : Byte) : (zext16 b).toNat = b.toNat := by
  have := b.isLt
  simp only [zext16, BitVec.toNat_setWidth]
  omega

end Sys2Proof
end

