-- ==== Sys2Proof/Laws/Memory.lean ====
section
/-! SUPPORT. The laws of a store of bytes: read after write, the canonical form is kept, equal canonical stores are equal lists. -/

namespace Sys2Proof.Machine

@[simp] theorem Memory.read_nil (k : Nat) : Memory.read [] k = Memory.blank := rfl

theorem Memory.read_of_wfFrom {lo k : Nat} {m : Memory} (h : Memory.wfFrom lo m) (hk : k < lo) :
    m.read k = Memory.blank := by
  induction m generalizing lo with
  | nil => rfl
  | cons c rest ih =>
    obtain ⟨j, v⟩ := c
    simp only [Memory.wfFrom, Bool.and_eq_true, decide_eq_true_eq] at h
    rw [Memory.read, if_neg (by omega)]
    exact ih h.2 (by omega)

theorem Memory.wfFrom_mono {lo lo' : Nat} {m : Memory} (h : Memory.wfFrom lo m) (hle : lo' ≤ lo) : Memory.wfFrom lo' m := by
  cases m with
  | nil => rfl
  | cons c rest =>
    simp only [Memory.wfFrom, Bool.and_eq_true, decide_eq_true_eq] at h ⊢
    exact ⟨⟨by omega, h.1.2⟩, h.2⟩

theorem Memory.read_cons_same {k : Nat} {v : Byte} {m : Memory} (h : m.read k = Memory.blank) :
    (Memory.cons k v m).read k = v := by
  unfold Memory.cons
  split
  · next hv => rw [h, hv]
  · simp [Memory.read]

theorem Memory.read_cons_other {k j : Nat} (v : Byte) (m : Memory) (h : j ≠ k) :
    (Memory.cons k v m).read j = m.read j := by
  unfold Memory.cons
  split
  · rfl
  · simp [Memory.read, h]

theorem Memory.wfFrom_cons {lo k : Nat} (v : Byte) {m : Memory} (hk : lo ≤ k) (h : Memory.wfFrom (k + 1) m) :
    Memory.wfFrom lo (Memory.cons k v m) := by
  unfold Memory.cons
  split
  · exact Memory.wfFrom_mono h (by omega)
  · next hv => simp [Memory.wfFrom, hk, hv, h]

/-- A write gives back the byte written, in a canonical store. -/
theorem Memory.read_write_same {lo : Nat} {m : Memory} (h : Memory.wfFrom lo m) (k : Nat) (v : Byte) :
    (m.write k v).read k = v := by
  induction m generalizing lo with
  | nil => exact Memory.read_cons_same rfl
  | cons c rest ih =>
    obtain ⟨j, u⟩ := c
    have h' := h
    simp only [Memory.wfFrom, Bool.and_eq_true, decide_eq_true_eq] at h
    simp only [Memory.write]
    split
    · next hlt =>
      refine Memory.read_cons_same (Memory.read_of_wfFrom (lo := j) ?_ hlt)
      simp [Memory.wfFrom, h.1.2, h.2]
    · split
      · next heq => exact Memory.read_cons_same (Memory.read_of_wfFrom h.2 (by omega))
      · next hne => rw [Memory.read, if_neg hne]; exact ih h.2

/-- A write leaves every other index alone. -/
theorem Memory.read_write_other (m : Memory) {k j : Nat} (v : Byte) (h : j ≠ k) : (m.write k v).read j = m.read j := by
  induction m with
  | nil => exact Memory.read_cons_other v [] h
  | cons c rest ih =>
    obtain ⟨i, u⟩ := c
    simp only [Memory.write]
    split
    · exact Memory.read_cons_other v _ h
    · split
      · next heq =>
        subst heq
        rw [Memory.read_cons_other v _ h, Memory.read, if_neg h]
      · simp only [Memory.read, ih]

/-- A write keeps the canonical form. -/
theorem Memory.wfFrom_write {lo : Nat} {m : Memory} (h : Memory.wfFrom lo m) {k : Nat} (hk : lo ≤ k) (v : Byte) :
    Memory.wfFrom lo (m.write k v) := by
  induction m generalizing lo with
  | nil => exact Memory.wfFrom_cons v hk rfl
  | cons c rest ih =>
    obtain ⟨j, u⟩ := c
    simp only [Memory.wfFrom, Bool.and_eq_true, decide_eq_true_eq] at h
    simp only [Memory.write]
    split
    · next hlt =>
      refine Memory.wfFrom_cons v hk ?_
      simp only [Memory.wfFrom, Bool.and_eq_true, decide_eq_true_eq]
      exact ⟨⟨by omega, h.1.2⟩, h.2⟩
    · split
      · next heq => subst heq; exact Memory.wfFrom_cons v hk h.2
      · next hge hne =>
        simp only [Memory.wfFrom, Bool.and_eq_true, decide_eq_true_eq]
        exact ⟨h.1, ih h.2 (by omega)⟩

theorem Memory.wf_write {m : Memory} (h : m.wf) (k : Nat) (v : Byte) : (m.write k v).wf :=
  Memory.wfFrom_write h (Nat.zero_le k) v

@[simp] theorem Memory.below_nil (n : Nat) : Memory.below n [] = true := rfl

theorem Memory.below_cons {n k : Nat} (v : Byte) {m : Memory} (hk : k < n) (h : m.below n) : (Memory.cons k v m).below n := by
  unfold Memory.cons
  split
  · exact h
  · simp only [Memory.below, List.all_cons, Bool.and_eq_true, decide_eq_true_eq] at h ⊢
    exact ⟨hk, h⟩

/-- A write below `n` keeps every listed index below `n`. -/
theorem Memory.below_write {n : Nat} {m : Memory} (h : m.below n) {k : Nat} (hk : k < n) (v : Byte) : (m.write k v).below n := by
  induction m with
  | nil => exact Memory.below_cons v hk rfl
  | cons c rest ih =>
    obtain ⟨j, u⟩ := c
    have h' : j < n ∧ Memory.below n rest = true := by
      simpa only [Memory.below, List.all_cons, Bool.and_eq_true, decide_eq_true_eq] using h
    simp only [Memory.write]
    split
    · exact Memory.below_cons v hk h
    · split
      · exact Memory.below_cons v hk h'.2
      · have hr := ih h'.2
        simp only [Memory.below, List.all_cons, Bool.and_eq_true, decide_eq_true_eq] at hr ⊢
        exact ⟨h'.1, hr⟩

/-- Equal memories are equal data: two canonical stores that read alike are the same list. -/
theorem Memory.ext_of_wfFrom {lo : Nat} {m m' : Memory} (h : Memory.wfFrom lo m) (h' : Memory.wfFrom lo m')
    (hr : ∀ k, m.read k = m'.read k) : m = m' := by
  induction m generalizing lo m' with
  | nil =>
    cases m' with
    | nil => rfl
    | cons c rest =>
      obtain ⟨j, u⟩ := c
      simp only [Memory.wfFrom, Bool.and_eq_true, decide_eq_true_eq] at h'
      exact absurd (by simpa [Memory.read] using (hr j).symm) h'.1.2
  | cons c rest ih =>
    obtain ⟨j, u⟩ := c
    have hc := h
    simp only [Memory.wfFrom, Bool.and_eq_true, decide_eq_true_eq] at h
    cases m' with
    | nil => exact absurd (by simpa [Memory.read] using hr j) h.1.2
    | cons c' rest' =>
      obtain ⟨j', u'⟩ := c'
      have hc' := h'
      simp only [Memory.wfFrom, Bool.and_eq_true, decide_eq_true_eq] at h'
      have hj : j = j' := by
        rcases Nat.lt_trichotomy j j' with hlt | heq | hlt
        · have := hr j
          rw [Memory.read, if_pos rfl, Memory.read_of_wfFrom (lo := j') (by simp [Memory.wfFrom, h'.1.2, h'.2]) hlt] at this
          exact absurd this h.1.2
        · exact heq
        · have := hr j'
          rw [Memory.read_of_wfFrom (lo := j) (by simp [Memory.wfFrom, h.1.2, h.2]) hlt, Memory.read, if_pos rfl] at this
          exact absurd this.symm h'.1.2
      subst hj
      have hu : u = u' := by simpa [Memory.read] using hr j
      subst hu
      congr 1
      refine ih h.2 h'.2 fun k => ?_
      by_cases hk : k = j
      · subst hk
        rw [Memory.read_of_wfFrom h.2 (by omega), Memory.read_of_wfFrom h'.2 (by omega)]
      · simpa [Memory.read, hk] using hr k

/-- The store made of a list of bytes is canonical. -/
theorem Memory.wfFrom_ofBytes (k : Nat) (l : List Byte) : Memory.wfFrom k (Memory.ofBytes k l) := by
  induction l generalizing k with
  | nil => rfl
  | cons v rest ih => exact Memory.wfFrom_cons v (Nat.le_refl k) (ih (k + 1))

/-- It stays within the list's indices. -/
theorem Memory.below_ofBytes (k : Nat) (l : List Byte) : (Memory.ofBytes k l).below (k + l.length) := by
  induction l generalizing k with
  | nil => rfl
  | cons v rest ih =>
    refine Memory.below_cons v (by simp) ?_
    simpa [Nat.add_assoc, Nat.add_comm 1] using ih (k + 1)

/-- It reads as the list. -/
theorem Memory.read_ofBytes (k : Nat) (l : List Byte) (j : Nat) (hj : j < l.length) :
    (Memory.ofBytes k l).read (k + j) = l[j] := by
  induction l generalizing k j with
  | nil => simp at hj
  | cons v rest ih =>
    cases j with
    | zero => exact Memory.read_cons_same (Memory.read_of_wfFrom (Memory.wfFrom_ofBytes (k + 1) rest) (by omega))
    | succ j =>
      rw [Memory.ofBytes, Memory.read_cons_other v _ (by omega)]
      have := ih (k + 1) j (by simpa using hj)
      simpa [Nat.add_assoc, Nat.add_comm 1] using this

end Sys2Proof.Machine
end

