-- ==== Sys2Proof/Laws/State.lean ====
section
/-! SUPPORT. One lemma for each field under each named update of State. -/

namespace Sys2Proof.Machine

variable (s : State)

@[simp] theorem State.setA_a (v : Byte) : (s.setA v).a = v := rfl
@[simp] theorem State.setA_x (v : Byte) : (s.setA v).x = s.x := rfl
@[simp] theorem State.setA_y (v : Byte) : (s.setA v).y = s.y := rfl
@[simp] theorem State.setA_sp (v : Byte) : (s.setA v).sp = s.sp := rfl
@[simp] theorem State.setA_pc (v : Byte) : (s.setA v).pc = s.pc := rfl
@[simp] theorem State.setA_p (v : Byte) : (s.setA v).p = s.p := rfl
@[simp] theorem State.setA_ram (v : Byte) : (s.setA v).ram = s.ram := rfl
@[simp] theorem State.setA_prg (v : Byte) : (s.setA v).prg = s.prg := rfl
@[simp] theorem State.setA_prgPages (v : Byte) : (s.setA v).prgPages = s.prgPages := rfl
@[simp] theorem State.setA_cyc (v : Byte) : (s.setA v).cyc = s.cyc := rfl
@[simp] theorem State.setA_report (v : Byte) : (s.setA v).report = s.report := rfl
@[simp] theorem State.setA_periph (v : Byte) : (s.setA v).periph = s.periph := rfl
@[simp] theorem State.setA_poweredOn (v : Byte) : (s.setA v).poweredOn = s.poweredOn := rfl

@[simp] theorem State.setX_a (v : Byte) : (s.setX v).a = s.a := rfl
@[simp] theorem State.setX_x (v : Byte) : (s.setX v).x = v := rfl
@[simp] theorem State.setX_y (v : Byte) : (s.setX v).y = s.y := rfl
@[simp] theorem State.setX_sp (v : Byte) : (s.setX v).sp = s.sp := rfl
@[simp] theorem State.setX_pc (v : Byte) : (s.setX v).pc = s.pc := rfl
@[simp] theorem State.setX_p (v : Byte) : (s.setX v).p = s.p := rfl
@[simp] theorem State.setX_ram (v : Byte) : (s.setX v).ram = s.ram := rfl
@[simp] theorem State.setX_prg (v : Byte) : (s.setX v).prg = s.prg := rfl
@[simp] theorem State.setX_prgPages (v : Byte) : (s.setX v).prgPages = s.prgPages := rfl
@[simp] theorem State.setX_cyc (v : Byte) : (s.setX v).cyc = s.cyc := rfl
@[simp] theorem State.setX_report (v : Byte) : (s.setX v).report = s.report := rfl
@[simp] theorem State.setX_periph (v : Byte) : (s.setX v).periph = s.periph := rfl
@[simp] theorem State.setX_poweredOn (v : Byte) : (s.setX v).poweredOn = s.poweredOn := rfl

@[simp] theorem State.setY_a (v : Byte) : (s.setY v).a = s.a := rfl
@[simp] theorem State.setY_x (v : Byte) : (s.setY v).x = s.x := rfl
@[simp] theorem State.setY_y (v : Byte) : (s.setY v).y = v := rfl
@[simp] theorem State.setY_sp (v : Byte) : (s.setY v).sp = s.sp := rfl
@[simp] theorem State.setY_pc (v : Byte) : (s.setY v).pc = s.pc := rfl
@[simp] theorem State.setY_p (v : Byte) : (s.setY v).p = s.p := rfl
@[simp] theorem State.setY_ram (v : Byte) : (s.setY v).ram = s.ram := rfl
@[simp] theorem State.setY_prg (v : Byte) : (s.setY v).prg = s.prg := rfl
@[simp] theorem State.setY_prgPages (v : Byte) : (s.setY v).prgPages = s.prgPages := rfl
@[simp] theorem State.setY_cyc (v : Byte) : (s.setY v).cyc = s.cyc := rfl
@[simp] theorem State.setY_report (v : Byte) : (s.setY v).report = s.report := rfl
@[simp] theorem State.setY_periph (v : Byte) : (s.setY v).periph = s.periph := rfl
@[simp] theorem State.setY_poweredOn (v : Byte) : (s.setY v).poweredOn = s.poweredOn := rfl

@[simp] theorem State.setSp_a (v : Byte) : (s.setSp v).a = s.a := rfl
@[simp] theorem State.setSp_x (v : Byte) : (s.setSp v).x = s.x := rfl
@[simp] theorem State.setSp_y (v : Byte) : (s.setSp v).y = s.y := rfl
@[simp] theorem State.setSp_sp (v : Byte) : (s.setSp v).sp = v := rfl
@[simp] theorem State.setSp_pc (v : Byte) : (s.setSp v).pc = s.pc := rfl
@[simp] theorem State.setSp_p (v : Byte) : (s.setSp v).p = s.p := rfl
@[simp] theorem State.setSp_ram (v : Byte) : (s.setSp v).ram = s.ram := rfl
@[simp] theorem State.setSp_prg (v : Byte) : (s.setSp v).prg = s.prg := rfl
@[simp] theorem State.setSp_prgPages (v : Byte) : (s.setSp v).prgPages = s.prgPages := rfl
@[simp] theorem State.setSp_cyc (v : Byte) : (s.setSp v).cyc = s.cyc := rfl
@[simp] theorem State.setSp_report (v : Byte) : (s.setSp v).report = s.report := rfl
@[simp] theorem State.setSp_periph (v : Byte) : (s.setSp v).periph = s.periph := rfl
@[simp] theorem State.setSp_poweredOn (v : Byte) : (s.setSp v).poweredOn = s.poweredOn := rfl

@[simp] theorem State.setPc_a (v : Addr) : (s.setPc v).a = s.a := rfl
@[simp] theorem State.setPc_x (v : Addr) : (s.setPc v).x = s.x := rfl
@[simp] theorem State.setPc_y (v : Addr) : (s.setPc v).y = s.y := rfl
@[simp] theorem State.setPc_sp (v : Addr) : (s.setPc v).sp = s.sp := rfl
@[simp] theorem State.setPc_pc (v : Addr) : (s.setPc v).pc = v := rfl
@[simp] theorem State.setPc_p (v : Addr) : (s.setPc v).p = s.p := rfl
@[simp] theorem State.setPc_ram (v : Addr) : (s.setPc v).ram = s.ram := rfl
@[simp] theorem State.setPc_prg (v : Addr) : (s.setPc v).prg = s.prg := rfl
@[simp] theorem State.setPc_prgPages (v : Addr) : (s.setPc v).prgPages = s.prgPages := rfl
@[simp] theorem State.setPc_cyc (v : Addr) : (s.setPc v).cyc = s.cyc := rfl
@[simp] theorem State.setPc_report (v : Addr) : (s.setPc v).report = s.report := rfl
@[simp] theorem State.setPc_periph (v : Addr) : (s.setPc v).periph = s.periph := rfl
@[simp] theorem State.setPc_poweredOn (v : Addr) : (s.setPc v).poweredOn = s.poweredOn := rfl

@[simp] theorem State.setP_a (v : Status) : (s.setP v).a = s.a := rfl
@[simp] theorem State.setP_x (v : Status) : (s.setP v).x = s.x := rfl
@[simp] theorem State.setP_y (v : Status) : (s.setP v).y = s.y := rfl
@[simp] theorem State.setP_sp (v : Status) : (s.setP v).sp = s.sp := rfl
@[simp] theorem State.setP_pc (v : Status) : (s.setP v).pc = s.pc := rfl
@[simp] theorem State.setP_p (v : Status) : (s.setP v).p = v := rfl
@[simp] theorem State.setP_ram (v : Status) : (s.setP v).ram = s.ram := rfl
@[simp] theorem State.setP_prg (v : Status) : (s.setP v).prg = s.prg := rfl
@[simp] theorem State.setP_prgPages (v : Status) : (s.setP v).prgPages = s.prgPages := rfl
@[simp] theorem State.setP_cyc (v : Status) : (s.setP v).cyc = s.cyc := rfl
@[simp] theorem State.setP_report (v : Status) : (s.setP v).report = s.report := rfl
@[simp] theorem State.setP_periph (v : Status) : (s.setP v).periph = s.periph := rfl
@[simp] theorem State.setP_poweredOn (v : Status) : (s.setP v).poweredOn = s.poweredOn := rfl

@[simp] theorem State.setRam_a (v : Memory) : (s.setRam v).a = s.a := rfl
@[simp] theorem State.setRam_x (v : Memory) : (s.setRam v).x = s.x := rfl
@[simp] theorem State.setRam_y (v : Memory) : (s.setRam v).y = s.y := rfl
@[simp] theorem State.setRam_sp (v : Memory) : (s.setRam v).sp = s.sp := rfl
@[simp] theorem State.setRam_pc (v : Memory) : (s.setRam v).pc = s.pc := rfl
@[simp] theorem State.setRam_p (v : Memory) : (s.setRam v).p = s.p := rfl
@[simp] theorem State.setRam_ram (v : Memory) : (s.setRam v).ram = v := rfl
@[simp] theorem State.setRam_prg (v : Memory) : (s.setRam v).prg = s.prg := rfl
@[simp] theorem State.setRam_prgPages (v : Memory) : (s.setRam v).prgPages = s.prgPages := rfl
@[simp] theorem State.setRam_cyc (v : Memory) : (s.setRam v).cyc = s.cyc := rfl
@[simp] theorem State.setRam_report (v : Memory) : (s.setRam v).report = s.report := rfl
@[simp] theorem State.setRam_periph (v : Memory) : (s.setRam v).periph = s.periph := rfl
@[simp] theorem State.setRam_poweredOn (v : Memory) : (s.setRam v).poweredOn = s.poweredOn := rfl

@[simp] theorem State.setPrg_a (v : Memory) : (s.setPrg v).a = s.a := rfl
@[simp] theorem State.setPrg_x (v : Memory) : (s.setPrg v).x = s.x := rfl
@[simp] theorem State.setPrg_y (v : Memory) : (s.setPrg v).y = s.y := rfl
@[simp] theorem State.setPrg_sp (v : Memory) : (s.setPrg v).sp = s.sp := rfl
@[simp] theorem State.setPrg_pc (v : Memory) : (s.setPrg v).pc = s.pc := rfl
@[simp] theorem State.setPrg_p (v : Memory) : (s.setPrg v).p = s.p := rfl
@[simp] theorem State.setPrg_ram (v : Memory) : (s.setPrg v).ram = s.ram := rfl
@[simp] theorem State.setPrg_prg (v : Memory) : (s.setPrg v).prg = v := rfl
@[simp] theorem State.setPrg_prgPages (v : Memory) : (s.setPrg v).prgPages = s.prgPages := rfl
@[simp] theorem State.setPrg_cyc (v : Memory) : (s.setPrg v).cyc = s.cyc := rfl
@[simp] theorem State.setPrg_report (v : Memory) : (s.setPrg v).report = s.report := rfl
@[simp] theorem State.setPrg_periph (v : Memory) : (s.setPrg v).periph = s.periph := rfl
@[simp] theorem State.setPrg_poweredOn (v : Memory) : (s.setPrg v).poweredOn = s.poweredOn := rfl

@[simp] theorem State.setCyc_a (v : Nat) : (s.setCyc v).a = s.a := rfl
@[simp] theorem State.setCyc_x (v : Nat) : (s.setCyc v).x = s.x := rfl
@[simp] theorem State.setCyc_y (v : Nat) : (s.setCyc v).y = s.y := rfl
@[simp] theorem State.setCyc_sp (v : Nat) : (s.setCyc v).sp = s.sp := rfl
@[simp] theorem State.setCyc_pc (v : Nat) : (s.setCyc v).pc = s.pc := rfl
@[simp] theorem State.setCyc_p (v : Nat) : (s.setCyc v).p = s.p := rfl
@[simp] theorem State.setCyc_ram (v : Nat) : (s.setCyc v).ram = s.ram := rfl
@[simp] theorem State.setCyc_prg (v : Nat) : (s.setCyc v).prg = s.prg := rfl
@[simp] theorem State.setCyc_prgPages (v : Nat) : (s.setCyc v).prgPages = s.prgPages := rfl
@[simp] theorem State.setCyc_cyc (v : Nat) : (s.setCyc v).cyc = v := rfl
@[simp] theorem State.setCyc_report (v : Nat) : (s.setCyc v).report = s.report := rfl
@[simp] theorem State.setCyc_periph (v : Nat) : (s.setCyc v).periph = s.periph := rfl
@[simp] theorem State.setCyc_poweredOn (v : Nat) : (s.setCyc v).poweredOn = s.poweredOn := rfl

@[simp] theorem State.setPoweredOn_a (v : Bool) : (s.setPoweredOn v).a = s.a := rfl
@[simp] theorem State.setPoweredOn_x (v : Bool) : (s.setPoweredOn v).x = s.x := rfl
@[simp] theorem State.setPoweredOn_y (v : Bool) : (s.setPoweredOn v).y = s.y := rfl
@[simp] theorem State.setPoweredOn_sp (v : Bool) : (s.setPoweredOn v).sp = s.sp := rfl
@[simp] theorem State.setPoweredOn_pc (v : Bool) : (s.setPoweredOn v).pc = s.pc := rfl
@[simp] theorem State.setPoweredOn_p (v : Bool) : (s.setPoweredOn v).p = s.p := rfl
@[simp] theorem State.setPoweredOn_ram (v : Bool) : (s.setPoweredOn v).ram = s.ram := rfl
@[simp] theorem State.setPoweredOn_prg (v : Bool) : (s.setPoweredOn v).prg = s.prg := rfl
@[simp] theorem State.setPoweredOn_prgPages (v : Bool) : (s.setPoweredOn v).prgPages = s.prgPages := rfl
@[simp] theorem State.setPoweredOn_cyc (v : Bool) : (s.setPoweredOn v).cyc = s.cyc := rfl
@[simp] theorem State.setPoweredOn_report (v : Bool) : (s.setPoweredOn v).report = s.report := rfl
@[simp] theorem State.setPoweredOn_periph (v : Bool) : (s.setPoweredOn v).periph = s.periph := rfl
@[simp] theorem State.setPoweredOn_poweredOn (v : Bool) : (s.setPoweredOn v).poweredOn = v := rfl

@[simp] theorem State.raise_a (v : Report) : (s.raise v).a = s.a := rfl
@[simp] theorem State.raise_x (v : Report) : (s.raise v).x = s.x := rfl
@[simp] theorem State.raise_y (v : Report) : (s.raise v).y = s.y := rfl
@[simp] theorem State.raise_sp (v : Report) : (s.raise v).sp = s.sp := rfl
@[simp] theorem State.raise_pc (v : Report) : (s.raise v).pc = s.pc := rfl
@[simp] theorem State.raise_p (v : Report) : (s.raise v).p = s.p := rfl
@[simp] theorem State.raise_ram (v : Report) : (s.raise v).ram = s.ram := rfl
@[simp] theorem State.raise_prg (v : Report) : (s.raise v).prg = s.prg := rfl
@[simp] theorem State.raise_prgPages (v : Report) : (s.raise v).prgPages = s.prgPages := rfl
@[simp] theorem State.raise_cyc (v : Report) : (s.raise v).cyc = s.cyc := rfl
@[simp] theorem State.raise_report (v : Report) : (s.raise v).report = s.report ++ [v] := rfl
@[simp] theorem State.raise_periph (v : Report) : (s.raise v).periph = s.periph := rfl
@[simp] theorem State.raise_poweredOn (v : Report) : (s.raise v).poweredOn = s.poweredOn := rfl

@[simp] theorem State.transact_a (v : PeriphEvent) : (s.transact v).a = s.a := rfl
@[simp] theorem State.transact_x (v : PeriphEvent) : (s.transact v).x = s.x := rfl
@[simp] theorem State.transact_y (v : PeriphEvent) : (s.transact v).y = s.y := rfl
@[simp] theorem State.transact_sp (v : PeriphEvent) : (s.transact v).sp = s.sp := rfl
@[simp] theorem State.transact_pc (v : PeriphEvent) : (s.transact v).pc = s.pc := rfl
@[simp] theorem State.transact_p (v : PeriphEvent) : (s.transact v).p = s.p := rfl
@[simp] theorem State.transact_ram (v : PeriphEvent) : (s.transact v).ram = s.ram := rfl
@[simp] theorem State.transact_prg (v : PeriphEvent) : (s.transact v).prg = s.prg := rfl
@[simp] theorem State.transact_prgPages (v : PeriphEvent) : (s.transact v).prgPages = s.prgPages := rfl
@[simp] theorem State.transact_cyc (v : PeriphEvent) : (s.transact v).cyc = s.cyc := rfl
@[simp] theorem State.transact_report (v : PeriphEvent) : (s.transact v).report = s.report := rfl
@[simp] theorem State.transact_periph (v : PeriphEvent) : (s.transact v).periph = s.periph ++ [v] := rfl
@[simp] theorem State.transact_poweredOn (v : PeriphEvent) : (s.transact v).poweredOn = s.poweredOn := rfl

@[simp] theorem State.setZN_p (v : Byte) : (s.setZN v).p = s.p.setZN v := rfl
@[simp] theorem State.setZN_a (v : Byte) : (s.setZN v).a = s.a := rfl
@[simp] theorem State.setZN_x (v : Byte) : (s.setZN v).x = s.x := rfl
@[simp] theorem State.setZN_y (v : Byte) : (s.setZN v).y = s.y := rfl
@[simp] theorem State.setZN_sp (v : Byte) : (s.setZN v).sp = s.sp := rfl
@[simp] theorem State.setZN_pc (v : Byte) : (s.setZN v).pc = s.pc := rfl
@[simp] theorem State.setZN_ram (v : Byte) : (s.setZN v).ram = s.ram := rfl
@[simp] theorem State.setZN_prg (v : Byte) : (s.setZN v).prg = s.prg := rfl
@[simp] theorem State.setZN_prgPages (v : Byte) : (s.setZN v).prgPages = s.prgPages := rfl
@[simp] theorem State.setZN_cyc (v : Byte) : (s.setZN v).cyc = s.cyc := rfl
@[simp] theorem State.setZN_report (v : Byte) : (s.setZN v).report = s.report := rfl
@[simp] theorem State.setZN_periph (v : Byte) : (s.setZN v).periph = s.periph := rfl
@[simp] theorem State.setZN_poweredOn (v : Byte) : (s.setZN v).poweredOn = s.poweredOn := rfl

/-! The flags under the status word's own updates. -/

variable (p : Status)

@[simp] theorem Status.setZN_z (v : Byte) : (p.setZN v).z = (v == 0) := rfl
@[simp] theorem Status.setZN_n (v : Byte) : (p.setZN v).n = v.getLsbD 7 := rfl
@[simp] theorem Status.setZN_c (v : Byte) : (p.setZN v).c = p.c := rfl
@[simp] theorem Status.setZN_i (v : Byte) : (p.setZN v).i = p.i := rfl
@[simp] theorem Status.setZN_d (v : Byte) : (p.setZN v).d = p.d := rfl
@[simp] theorem Status.setZN_b (v : Byte) : (p.setZN v).b = p.b := rfl
@[simp] theorem Status.setZN_v (v : Byte) : (p.setZN v).v = p.v := rfl

@[simp] theorem Status.setSum_c (t : Sum) : (p.setSum t).c = t.c := rfl
@[simp] theorem Status.setSum_v (t : Sum) : (p.setSum t).v = t.v := rfl
@[simp] theorem Status.setSum_z (t : Sum) : (p.setSum t).z = (t.r == 0) := rfl
@[simp] theorem Status.setSum_n (t : Sum) : (p.setSum t).n = t.r.getLsbD 7 := rfl
@[simp] theorem Status.setSum_i (t : Sum) : (p.setSum t).i = p.i := rfl
@[simp] theorem Status.setSum_d (t : Sum) : (p.setSum t).d = p.d := rfl
@[simp] theorem Status.setSum_b (t : Sum) : (p.setSum t).b = p.b := rfl

@[simp] theorem Status.setShift_c (q : Byte × Bool) : (p.setShift q).c = q.2 := rfl
@[simp] theorem Status.setShift_z (q : Byte × Bool) : (p.setShift q).z = (q.1 == 0) := rfl
@[simp] theorem Status.setShift_n (q : Byte × Bool) : (p.setShift q).n = q.1.getLsbD 7 := rfl
@[simp] theorem Status.setShift_v (q : Byte × Bool) : (p.setShift q).v = p.v := rfl
@[simp] theorem Status.setShift_i (q : Byte × Bool) : (p.setShift q).i = p.i := rfl
@[simp] theorem Status.setShift_d (q : Byte × Bool) : (p.setShift q).d = p.d := rfl
@[simp] theorem Status.setShift_b (q : Byte × Bool) : (p.setShift q).b = p.b := rfl

end Sys2Proof.Machine
end

