-- ==== Sys2Proof/Laws/Bus.lean ====
section
/-! SUPPORT. What the bus operations and the stack primitives can do, said once. -/

namespace Sys2Proof.Machine

/-- The state with records and transactions appended: all a bus read can do to it. -/
def State.logged (s : State) (rs : List Report) (es : List PeriphEvent) : State :=
  { s with report := s.report ++ rs, periph := s.periph ++ es }

@[simp] theorem State.logged_a (s : State) (rs es) : (s.logged rs es).a = s.a := rfl
@[simp] theorem State.logged_x (s : State) (rs es) : (s.logged rs es).x = s.x := rfl
@[simp] theorem State.logged_y (s : State) (rs es) : (s.logged rs es).y = s.y := rfl
@[simp] theorem State.logged_sp (s : State) (rs es) : (s.logged rs es).sp = s.sp := rfl
@[simp] theorem State.logged_pc (s : State) (rs es) : (s.logged rs es).pc = s.pc := rfl
@[simp] theorem State.logged_p (s : State) (rs es) : (s.logged rs es).p = s.p := rfl
@[simp] theorem State.logged_ram (s : State) (rs es) : (s.logged rs es).ram = s.ram := rfl
@[simp] theorem State.logged_prg (s : State) (rs es) : (s.logged rs es).prg = s.prg := rfl
@[simp] theorem State.logged_prgPages (s : State) (rs es) : (s.logged rs es).prgPages = s.prgPages := rfl
@[simp] theorem State.logged_cyc (s : State) (rs es) : (s.logged rs es).cyc = s.cyc := rfl
@[simp] theorem State.logged_poweredOn (s : State) (rs es) : (s.logged rs es).poweredOn = s.poweredOn := rfl
@[simp] theorem State.logged_report (s : State) (rs es) : (s.logged rs es).report = s.report ++ rs := rfl
@[simp] theorem State.logged_periph (s : State) (rs es) : (s.logged rs es).periph = s.periph ++ es := rfl

@[simp] theorem State.logged_nil (s : State) : s.logged [] [] = s := by simp [State.logged]

theorem State.logged_logged (s : State) (rs rs' es es') :
    (s.logged rs es).logged rs' es' = s.logged (rs ++ rs') (es ++ es') := by
  simp [State.logged]

/-- A bus read appends to the two streams and changes nothing else (R52). -/
theorem busRead_effect (a : Addr) (s : State) : ∃ rs es, (busRead a s).2 = s.logged rs es := by
  unfold busRead
  split
  · exact ⟨[], [], by simp⟩
  · next reg _ => exact ⟨[], [.read reg], by simp [periphRead, State.transact, State.logged]⟩
  · exact ⟨[.unhandledAddress a .read], [], by simp [unhandledRead, State.raise, State.logged]⟩
  · unfold mapperRead
    split
    · exact ⟨[], [], by simp⟩
    · exact ⟨[.unhandledAddress a .read], [], by simp [unhandledRead, State.raise, State.logged]⟩

/-- A 16-bit read does no more. -/
theorem memRead16_effect (a : Addr) (s : State) : ∃ rs es, (memRead16 a s).2 = s.logged rs es := by
  obtain ⟨rs, es, h⟩ := busRead_effect a s
  obtain ⟨rs', es', h'⟩ := busRead_effect (a + 1) (busRead a s).2
  exact ⟨rs ++ rs', es ++ es', by rw [← State.logged_logged, ← h, ← h']; rfl⟩

/-- A read where memory is has no side effect and gives the byte memory holds (R54, R61). -/
theorem busRead_of_peek {a : Addr} {s : State} {v : Byte} (h : s.peek a = some v) : busRead a s = (v, s) := by
  unfold State.peek at h
  unfold busRead
  cases hr : route a with
  | ram cell => simp_all
  | periph reg => simp_all
  | unhandled => simp_all
  | mapper =>
    simp only [hr, Option.map_eq_some_iff] at h
    obtain ⟨k, hk, hv⟩ := h
    simp [mapperRead, hk, hv]

theorem route_ram {a : Addr} (h : a.toNat ≤ 0x1FFF) : route a = .ram (a.toNat % 0x800) := if_pos h

theorem busRead_ram {a : Addr} (h : a.toNat ≤ 0x1FFF) (s : State) :
    busRead a s = (s.ram.read (a.toNat % 0x800), s) := by
  unfold busRead
  rw [route_ram h]

theorem busWrite_ram {a : Addr} (h : a.toNat ≤ 0x1FFF) (v : Byte) (s : State) :
    busWrite a v s = s.setRam (s.ram.write (a.toNat % 0x800) v) := by
  unfold busWrite
  rw [route_ram h]

theorem route_cell_lt {a : Addr} {k : Nat} (h : route a = .ram k) : k < 0x800 := by
  unfold route at h
  split at h
  · cases h
    exact Nat.mod_lt _ (by decide)
  · repeat' split at h
    all_goals cases h

/-- What a bus write can do: change one RAM cell, or append one entry to a stream (R53). -/
theorem busWrite_effect (a : Addr) (v : Byte) (s : State) :
    (∃ k < 0x800, busWrite a v s = s.setRam (s.ram.write k v)) ∨ (∃ r, busWrite a v s = s.raise r) ∨
      (∃ e, busWrite a v s = s.transact e) := by
  unfold busWrite
  cases hr : route a with
  | ram k => exact .inl ⟨k, route_cell_lt hr, rfl⟩
  | periph reg => exact .inr (.inr ⟨_, rfl⟩)
  | unhandled => exact .inr (.inl ⟨_, rfl⟩)
  | mapper => exact .inr (.inl ⟨_, rfl⟩)

/-- The stack location of `SP` is RAM cell `0x100 + SP` (R23). -/
theorem stackAddr_toNat (sp : Byte) : (stackAddr sp).toNat = 0x100 + sp.toNat := by
  have := sp.isLt
  have h : (0x0100 : Addr).toNat = 0x100 := rfl
  simp only [stackAddr, BitVec.toNat_add, zext16_toNat, h]
  omega

/-- `Push8` in full (R30). -/
theorem push8_eq (v : Byte) (s : State) :
    push8 v s = (s.setRam (s.ram.write (0x100 + s.sp.toNat) v)).setSp (s.sp - 1) := by
  have h := s.sp.isLt
  unfold push8
  rw [busWrite_ram (by rw [stackAddr_toNat]; omega), stackAddr_toNat, Nat.mod_eq_of_lt (by omega)]
  rfl

/-- `Pop8` in full (R30). -/
theorem pop8_eq (s : State) :
    pop8 s = (s.ram.read (0x100 + (s.sp + 1).toNat), s.setSp (s.sp + 1)) := by
  have h := (s.sp + 1).isLt
  simp only [pop8, State.setSp_sp]
  rw [busRead_ram (by rw [stackAddr_toNat]; omega), stackAddr_toNat, Nat.mod_eq_of_lt (by omega)]
  rfl

/-- `Push16` in full (R31). -/
theorem push16_eq (v : Addr) (s : State) :
    push16 v s =
      (s.setRam ((s.ram.write (0x100 + s.sp.toNat) (hi8 v)).write (0x100 + (s.sp - 1).toNat) (lo8 v))).setSp (s.sp - 2) := by
  simp only [push16, push8_eq, State.setSp_sp, State.setSp_ram, State.setRam_ram, BitVec.sub_sub]
  rfl

/-- `Pop16` in full (R31). -/
theorem pop16_eq (s : State) :
    pop16 s = (word (s.ram.read (0x100 + (s.sp + 2).toNat)) (s.ram.read (0x100 + (s.sp + 1).toNat)), s.setSp (s.sp + 2)) := by
  simp only [pop16, pop8_eq, State.setSp_sp, State.setSp_ram, BitVec.add_assoc]
  rfl

/-- The vectors lie in the mapper's program pages, so reading one has no side effect (R75). -/
theorem memRead16_vector_state (s : State) : (memRead16 interruptVector s).2 = s ∧ (memRead16 resetVector s).2 = s := by
  have read (a : Addr) (ha : route a = .mapper) (h : a.toNat > 0xBFFF) (t : State) : (busRead a t).2 = t := by
    unfold busRead mapperRead prgIndex
    rw [ha, if_neg (by omega), if_neg (by omega)]
    cases t.prgPages <;> rfl
  refine ⟨?_, ?_⟩
  · simp only [memRead16]
    rw [read (interruptVector + 1) (by decide) (by decide), read interruptVector (by decide) (by decide)]
  · simp only [memRead16]
    rw [read (resetVector + 1) (by decide) (by decide), read resetVector (by decide) (by decide)]

/-- A bus read neither reads nor writes `PC` (R52). -/
theorem busRead_setPc (a p : Addr) (s : State) :
    busRead a (s.setPc p) = ((busRead a s).1, (busRead a s).2.setPc p) := by
  unfold busRead
  cases route a with
  | mapper =>
    simp only [mapperRead, State.setPc_prgPages, State.setPc_prg]
    cases prgIndex s.prgPages a <;> rfl
  | _ => rfl

/-- `Fetch8` with `PC` at `a` (R91): the bus read at `a`, and `PC` at the next address. -/
theorem fetch8_setPc (a : Addr) (s : State) :
    fetch8 (s.setPc a) = ((busRead a s).1, (busRead a s).2.setPc (a + 1)) := by
  simp only [fetch8, State.setPc_pc, busRead_setPc]
  rfl

/-- `Fetch8` (R91) moves `PC` on by one and may log. -/
theorem fetch8_effect (s : State) : ∃ rs es, (fetch8 s).2 = (s.logged rs es).setPc (s.pc + 1) := by
  obtain ⟨rs, es, h⟩ := busRead_effect s.pc s
  exact ⟨rs, es, by simp only [fetch8, h, State.logged_pc]⟩

end Sys2Proof.Machine
end

