-- ==== Sys2Proof/Laws/Operands.lean ====
section
/-! SUPPORT. What the resolvers can do. -/

namespace Sys2Proof.Machine

/-- A pointer at a zero-page address, its high byte possibly at 0x0100, is read from RAM with no side effect. -/
theorem memRead16_zeroPage (b : Byte) (s : State) :
    memRead16 (zext16 b) s = (word (s.ram.read (b.toNat + 1)) (s.ram.read b.toNat), s) := by
  have h := b.isLt
  have h0 : (zext16 b).toNat = b.toNat := zext16_toNat b
  have h1 : (zext16 b + 1).toNat = b.toNat + 1 := by
    have h2 : (1 : Addr).toNat = 1 := rfl
    rw [BitVec.toNat_add, h0, h2]
    omega
  have lo := busRead_ram (a := zext16 b) (by omega) s
  have hi := busRead_ram (a := zext16 b + 1) (by omega) s
  rw [h0, Nat.mod_eq_of_lt (by omega)] at lo
  rw [h1, Nat.mod_eq_of_lt (by omega)] at hi
  simp only [memRead16, lo, hi]

/-- A resolver changes no state: its pointers lie in RAM (R110). -/
@[simp] theorem resolve_state (m : EaMode) (s : State) : (resolve m s).2 = s := by
  cases m with
  | indx b => simp only [resolve, memRead16_zeroPage]
  | indy b => simp only [resolve, memRead16_zeroPage]
  | _ => rfl

/-- Reading an operand appends to the two streams and changes nothing else. -/
theorem readOperand_effect (o : Src) (s : State) : ∃ rs es, (readOperand o s).2 = s.logged rs es := by
  cases o with
  | imm b => exact ⟨[], [], by simp [readOperand]⟩
  | mem m =>
    obtain ⟨rs, es, h⟩ := busRead_effect (resolve m s).1 s
    exact ⟨rs, es, by simp only [readOperand, resolve_state, h]⟩

/-- So does finding a jump's target. -/
theorem jumpTarget_effect (o : JmpOperand) (s : State) : ∃ rs es, (jumpTarget o s).2 = s.logged rs es := by
  cases o with
  | abs w => exact ⟨[], [], by simp [jumpTarget]⟩
  | ind w => exact memRead16_effect w s

end Sys2Proof.Machine
end

