-- ==== Sys2Proof/Laws/Peek.lean ====
section
/-! SUPPORT. How statements look at memory (`State.peek`) against the bus and the stack: what a write, a push and the updates of a state
leave of it. -/

namespace Sys2Proof.Machine

theorem peek_ram {a : Addr} (h : a.toNat ≤ 0x1FFF) (s : State) : s.peek a = some (s.ram.read (a.toNat % 0x800)) := by
  simp only [State.peek, route_ram h]

/-- What `peek` depends on. -/
theorem peek_congr {s t : State} (hr : t.ram = s.ram) (hp : t.prg = s.prg) (hn : t.prgPages = s.prgPages) (b : Addr) :
    t.peek b = s.peek b := by
  unfold State.peek
  rw [hr, hp, hn]

/-! `peek` looks at memory only. -/

@[simp] theorem State.peek_setA (s : State) (v : Byte) (b : Addr) : (s.setA v).peek b = s.peek b := rfl
@[simp] theorem State.peek_setX (s : State) (v : Byte) (b : Addr) : (s.setX v).peek b = s.peek b := rfl
@[simp] theorem State.peek_setY (s : State) (v : Byte) (b : Addr) : (s.setY v).peek b = s.peek b := rfl
@[simp] theorem State.peek_setSp (s : State) (v : Byte) (b : Addr) : (s.setSp v).peek b = s.peek b := rfl
@[simp] theorem State.peek_setPc (s : State) (v : Addr) (b : Addr) : (s.setPc v).peek b = s.peek b := rfl
@[simp] theorem State.peek_setP (s : State) (v : Status) (b : Addr) : (s.setP v).peek b = s.peek b := rfl
@[simp] theorem State.peek_setCyc (s : State) (v : Nat) (b : Addr) : (s.setCyc v).peek b = s.peek b := rfl
@[simp] theorem State.peek_raise (s : State) (v : Report) (b : Addr) : (s.raise v).peek b = s.peek b := rfl
@[simp] theorem State.peek_transact (s : State) (v : PeriphEvent) (b : Addr) : (s.transact v).peek b = s.peek b := rfl

/-- Above 0x1FFF it does not depend on RAM. -/
theorem peek_high {s t : State} (hp : t.prg = s.prg) (hn : t.prgPages = s.prgPages) {b : Addr} (hb : 0x2000 ≤ b.toNat) :
    t.peek b = s.peek b := by
  have hr : ∀ k, route b ≠ .ram k := by
    intro k h
    unfold route at h
    rw [if_neg (by omega)] at h
    repeat' split at h
    all_goals cases h
  unfold State.peek
  rw [hp, hn]
  cases h : route b with
  | ram k => exact absurd h (hr k)
  | _ => rfl

theorem wf_of_inv {s : State} (h : s.inv = true) : s.ram.wf = true := by
  simp only [State.inv, Bool.and_eq_true] at h
  exact h.1.1.1

/-- After RAM cell `k` is stored, an address that shows it reads as the byte stored. -/
theorem peek_setRam_same {s : State} (h : s.ram.wf = true) {b : Addr} (hb : b.toNat ≤ 0x1FFF) {k : Nat}
    (hk : b.toNat % 0x800 = k) (v : Byte) : (s.setRam (s.ram.write k v)).peek b = some v := by
  rw [peek_ram hb, hk, State.setRam_ram, Memory.read_write_same h]

/-- An address that does not show the cell reads as before. -/
theorem peek_setRam_other {s : State} {b : Addr} {k : Nat} (h : b.toNat ≤ 0x1FFF → b.toNat % 0x800 ≠ k) (v : Byte) :
    (s.setRam (s.ram.write k v)).peek b = s.peek b := by
  by_cases hb : b.toNat ≤ 0x1FFF
  · rw [peek_ram hb, peek_ram hb, State.setRam_ram, Memory.read_write_other _ _ (h hb)]
  · exact peek_high (s := s) (t := s.setRam (s.ram.write k v)) rfl rfl (by omega)

/-- The byte a pop reads, as memory shows it. -/
theorem peek_stack (sp : Byte) (s : State) : s.peek (stackAddr sp) = some (s.ram.read (0x100 + sp.toNat)) := by
  have := sp.isLt
  rw [peek_ram (by rw [stackAddr_toNat]; omega), stackAddr_toNat, Nat.mod_eq_of_lt (by omega)]

end Sys2Proof.Machine
end

