-- ==== Sys2Proof/Laws/Exec.lean ====
section
/-! SUPPORT. What an instruction body, a fetch and a step can do, said once. -/

namespace Sys2Proof.Machine

/-- RAM contents reached by storing bytes in cells below 0x800. -/
inductive Memory.Stores : Memory → Memory → Prop where
  | refl (m : Memory) : Memory.Stores m m
  | write {m m' : Memory} (h : Memory.Stores m m') {k : Nat} (hk : k < 0x800) (v : Byte) : Memory.Stores m (m'.write k v)

theorem Memory.Stores.trans {m m' m'' : Memory} (h : Memory.Stores m m') (h' : Memory.Stores m' m'') : Memory.Stores m m'' := by
  induction h' with
  | refl => exact h
  | write _ hk v ih => exact ih.write hk v

theorem Memory.Stores.keeps_wf {m m' : Memory} (h : Memory.Stores m m') (hm : m.wf) : m'.wf := by
  induction h with
  | refl => exact hm
  | write _ _ v ih => exact Memory.wf_write ih _ v

theorem Memory.Stores.keeps_below {m m' : Memory} (h : Memory.Stores m m') (hm : m.below 0x800) : m'.below 0x800 := by
  induction h with
  | refl => exact hm
  | write _ hk v ih => exact Memory.below_write ih hk v

/-- What any instruction may do to the state outside the registers and flags: store into RAM and append to the two streams. -/
structure State.Evolves (s t : State) : Prop where
  ram : Memory.Stores s.ram t.ram
  prg : t.prg = s.prg
  prgPages : t.prgPages = s.prgPages
  cyc : t.cyc = s.cyc
  report : ∃ rs, t.report = s.report ++ rs
  periph : ∃ es, t.periph = s.periph ++ es
  poweredOn : t.poweredOn = s.poweredOn

theorem State.Evolves.refl (s : State) : State.Evolves s s :=
  ⟨.refl _, rfl, rfl, rfl, ⟨[], by simp⟩, ⟨[], by simp⟩, rfl⟩

theorem State.Evolves.trans {s t u : State} (h : State.Evolves s t) (h' : State.Evolves t u) : State.Evolves s u := by
  obtain ⟨rs, hr⟩ := h.report
  obtain ⟨rs', hr'⟩ := h'.report
  obtain ⟨es, he⟩ := h.periph
  obtain ⟨es', he'⟩ := h'.periph
  exact ⟨h.ram.trans h'.ram, h'.prg.trans h.prg, h'.prgPages.trans h.prgPages, h'.cyc.trans h.cyc,
    ⟨rs ++ rs', by rw [hr', hr, List.append_assoc]⟩, ⟨es ++ es', by rw [he', he, List.append_assoc]⟩,
    h'.poweredOn.trans h.poweredOn⟩

/-! Writing registers and flags keeps the relation. -/

theorem State.Evolves.setA {s t : State} (h : State.Evolves s t) (v : Byte) : State.Evolves s (t.setA v) :=
  ⟨h.ram, h.prg, h.prgPages, h.cyc, h.report, h.periph, h.poweredOn⟩

theorem State.Evolves.setX {s t : State} (h : State.Evolves s t) (v : Byte) : State.Evolves s (t.setX v) :=
  ⟨h.ram, h.prg, h.prgPages, h.cyc, h.report, h.periph, h.poweredOn⟩

theorem State.Evolves.setY {s t : State} (h : State.Evolves s t) (v : Byte) : State.Evolves s (t.setY v) :=
  ⟨h.ram, h.prg, h.prgPages, h.cyc, h.report, h.periph, h.poweredOn⟩

theorem State.Evolves.setSp {s t : State} (h : State.Evolves s t) (v : Byte) : State.Evolves s (t.setSp v) :=
  ⟨h.ram, h.prg, h.prgPages, h.cyc, h.report, h.periph, h.poweredOn⟩

theorem State.Evolves.setPc {s t : State} (h : State.Evolves s t) (v : Addr) : State.Evolves s (t.setPc v) :=
  ⟨h.ram, h.prg, h.prgPages, h.cyc, h.report, h.periph, h.poweredOn⟩

theorem State.Evolves.setP {s t : State} (h : State.Evolves s t) (v : Status) : State.Evolves s (t.setP v) :=
  ⟨h.ram, h.prg, h.prgPages, h.cyc, h.report, h.periph, h.poweredOn⟩

theorem State.Evolves.setZN {s t : State} (h : State.Evolves s t) (v : Byte) : State.Evolves s (t.setZN v) :=
  ⟨h.ram, h.prg, h.prgPages, h.cyc, h.report, h.periph, h.poweredOn⟩

theorem State.evolves_logged (s : State) (rs : List Report) (es : List PeriphEvent) : State.Evolves s (s.logged rs es) :=
  ⟨.refl _, rfl, rfl, rfl, ⟨rs, rfl⟩, ⟨es, rfl⟩, rfl⟩

theorem State.evolves_raise (s : State) (r : Report) : State.Evolves s (s.raise r) :=
  ⟨.refl _, rfl, rfl, rfl, ⟨[r], rfl⟩, ⟨[], by simp⟩, rfl⟩

theorem busRead_evolves (a : Addr) (s : State) : State.Evolves s (busRead a s).2 := by
  obtain ⟨rs, es, h⟩ := busRead_effect a s
  exact h ▸ s.evolves_logged rs es

theorem busRead_resolve_evolves (m : EaMode) (s : State) :
    State.Evolves s (busRead (resolve m s).1 (resolve m s).2).2 := by
  simpa only [resolve_state] using busRead_evolves (resolve m s).1 s

theorem readOperand_evolves (o : Src) (s : State) : State.Evolves s (readOperand o s).2 := by
  obtain ⟨rs, es, h⟩ := readOperand_effect o s
  exact h ▸ s.evolves_logged rs es

theorem jumpTarget_evolves (o : JmpOperand) (s : State) : State.Evolves s (jumpTarget o s).2 := by
  obtain ⟨rs, es, h⟩ := jumpTarget_effect o s
  exact h ▸ s.evolves_logged rs es

theorem busWrite_evolves (a : Addr) (v : Byte) (s : State) : State.Evolves s (busWrite a v s) := by
  rcases busWrite_effect a v s with ⟨k, hk, h⟩ | ⟨r, h⟩ | ⟨e, h⟩ <;> rw [h]
  · exact ⟨(Memory.Stores.refl _).write hk v, rfl, rfl, rfl, ⟨[], by simp⟩, ⟨[], by simp⟩, rfl⟩
  · exact ⟨.refl _, rfl, rfl, rfl, ⟨[r], rfl⟩, ⟨[], by simp⟩, rfl⟩
  · exact ⟨.refl _, rfl, rfl, rfl, ⟨[], by simp⟩, ⟨[e], rfl⟩, rfl⟩

theorem push8_evolves (v : Byte) (s : State) : State.Evolves s (push8 v s) :=
  (busWrite_evolves (stackAddr s.sp) v s).setSp _

theorem push16_evolves (v : Addr) (s : State) : State.Evolves s (push16 v s) :=
  (push8_evolves (hi8 v) s).trans (push8_evolves (lo8 v) _)

theorem pop8_evolves (s : State) : State.Evolves s (pop8 s).2 := by
  rw [pop8_eq]
  exact (State.Evolves.refl s).setSp _

theorem pop16_evolves (s : State) : State.Evolves s (pop16 s).2 := by
  rw [pop16_eq]
  exact (State.Evolves.refl s).setSp _

/-- Taking the trap in full (R224): three bytes stored, `SP` lower by 3, `B` and `I` set, `PC` from the vector. -/
theorem enterTrap_eq (s : State) :
    enterTrap s =
      let t := ((push8 (pByte s.p true) (push16 s.pc s)).setP { s.p with b := true, i := true })
      t.setPc (memRead16 interruptVector t).1 := by
  simp only [enterTrap, (memRead16_vector_state _).1, push8_eq, push16_eq]
  rfl

theorem enterTrap_evolves (s : State) : State.Evolves s (enterTrap s) := by
  rw [enterTrap_eq]
  exact (((push16_evolves s.pc s).trans (push8_evolves _ _)).setP _).setPc _

/-- Returning from the trap in full (R225). -/
theorem returnFromTrap_eq (s : State) :
    returnFromTrap s =
      ((s.setSp (s.sp + 3)).setP (s.p.load (s.ram.read (0x100 + (s.sp + 1).toNat)) false)).setPc
        (word (s.ram.read (0x100 + (s.sp + 3).toNat)) (s.ram.read (0x100 + (s.sp + 2).toNat))) := by
  simp only [returnFromTrap, pop8_eq, pop16_eq, State.setP_sp, State.setP_ram, State.setSp_sp, State.setSp_ram, State.setSp_p,
    BitVec.add_assoc]
  rfl

theorem returnFromTrap_evolves (s : State) : State.Evolves s (returnFromTrap s) := by
  rw [returnFromTrap_eq]
  exact (((State.Evolves.refl s).setSp _).setP _).setPc _

theorem shiftInstr_evolves (kind : ShiftKind) (o : ShiftOperand) (s : State) : State.Evolves s (shiftInstr kind o s) := by
  cases o with
  | acc => exact ((State.Evolves.refl s).setP _).setA _
  | mem m =>
    simp only [shiftInstr, resolve_state]
    exact ((busRead_evolves _ s).setP _).trans (busWrite_evolves _ _ _)

theorem branch_evolves (cond : Bool) (off : Byte) (s : State) : State.Evolves s (branch cond off s) := by
  cases cond
  · exact .refl s
  · exact (State.Evolves.refl s).setPc _

/-- `Fetch8` moves `PC` on by one; a fetch of `n` bytes by `n` (R91). -/
theorem fetchBytes_effect (n : Nat) (s : State) :
    ∃ rs es, (fetchBytes n s).2 = (s.logged rs es).setPc (s.pc + BitVec.ofNat 16 n) := by
  induction n generalizing s with
  | zero => exact ⟨[], [], by simp [fetchBytes, State.setPc]⟩
  | succ n ih =>
    obtain ⟨rs, es, h⟩ := fetch8_effect s
    obtain ⟨rs', es', h'⟩ := ih (fetch8 s).2
    refine ⟨rs ++ rs', es ++ es', ?_⟩
    have hpc : s.pc + 1 + BitVec.ofNat 16 n = s.pc + BitVec.ofNat 16 (n + 1) := by
      rw [BitVec.add_assoc, Nat.add_comm n 1, BitVec.ofNat_add]
      rfl
    rw [fetchBytes, h', h, State.setPc_pc, hpc]
    simp only [State.logged, State.setPc, List.append_assoc]

theorem fetchBytes_length (n : Nat) (s : State) : (fetchBytes n s).1.length = n := by
  induction n generalizing s with
  | zero => rfl
  | succ n ih => simp [fetchBytes, ih]

/-- A fetch where memory is has no side effect. -/
theorem fetch8_of_peek {s : State} {v : Byte} (h : s.peek s.pc = some v) : fetch8 s = (v, s.setPc (s.pc + 1)) := by
  simp only [fetch8, busRead_of_peek h]

theorem fetchInstr_evolves (s : State) : State.Evolves s (fetchInstr s).state := by
  obtain ⟨rs, es, h⟩ := fetch8_effect s
  obtain ⟨rs', es', h'⟩ := fetchBytes_effect (operandCount (fetch8 s).1) (fetch8 s).2
  rw [fetchInstr, h', h]
  exact (((s.evolves_logged rs es).setPc _).trans (State.evolves_logged _ rs' es')).setPc _

/-- Every instruction body answers a next state, and this is all it can do outside the registers and flags. -/
theorem exec_evolves (i : Instr) (s : State) : ∃ t, exec i s = .next t ∧ State.Evolves s t := by
  cases i with
  | lda o => exact ⟨_, rfl, ((readOperand_evolves o s).setA _).setZN _⟩
  | ldx o => exact ⟨_, rfl, ((readOperand_evolves o s).setX _).setZN _⟩
  | ldy o => exact ⟨_, rfl, ((readOperand_evolves o s).setY _).setZN _⟩
  | sta m => exact ⟨_, rfl, by simpa only [resolve_state] using busWrite_evolves (resolve m s).1 s.a s⟩
  | stx m => exact ⟨_, rfl, by simpa only [resolve_state] using busWrite_evolves (resolve m s).1 s.x s⟩
  | sty m => exact ⟨_, rfl, by simpa only [resolve_state] using busWrite_evolves (resolve m s).1 s.y s⟩
  | tax => exact ⟨_, rfl, ((State.Evolves.refl s).setX _).setZN _⟩
  | tay => exact ⟨_, rfl, ((State.Evolves.refl s).setY _).setZN _⟩
  | txa => exact ⟨_, rfl, ((State.Evolves.refl s).setA _).setZN _⟩
  | tya => exact ⟨_, rfl, ((State.Evolves.refl s).setA _).setZN _⟩
  | tsx => exact ⟨_, rfl, ((State.Evolves.refl s).setX _).setZN _⟩
  | txs => exact ⟨_, rfl, (State.Evolves.refl s).setSp _⟩
  | adc o => exact ⟨_, rfl, ((readOperand_evolves o s).setA _).setP _⟩
  | sbc o => exact ⟨_, rfl, ((readOperand_evolves o s).setA _).setP _⟩
  | and o => exact ⟨_, rfl, ((readOperand_evolves o s).setA _).setZN _⟩
  | ora o => exact ⟨_, rfl, ((readOperand_evolves o s).setA _).setZN _⟩
  | eor o => exact ⟨_, rfl, ((readOperand_evolves o s).setA _).setZN _⟩
  | bit m => exact ⟨_, rfl, (readOperand_evolves (.mem m) s).setP _⟩
  | cmp o => exact ⟨_, rfl, (readOperand_evolves o s).setP _⟩
  | cpx o => exact ⟨_, rfl, (readOperand_evolves o s).setP _⟩
  | cpy o => exact ⟨_, rfl, (readOperand_evolves o s).setP _⟩
  | inc m => exact ⟨_, rfl, ((busRead_resolve_evolves m s).trans (busWrite_evolves _ _ _)).setZN _⟩
  | dec m => exact ⟨_, rfl, ((busRead_resolve_evolves m s).trans (busWrite_evolves _ _ _)).setZN _⟩
  | inx => exact ⟨_, rfl, ((State.Evolves.refl s).setX _).setZN _⟩
  | iny => exact ⟨_, rfl, ((State.Evolves.refl s).setY _).setZN _⟩
  | dex => exact ⟨_, rfl, ((State.Evolves.refl s).setX _).setZN _⟩
  | dey => exact ⟨_, rfl, ((State.Evolves.refl s).setY _).setZN _⟩
  | asl o => exact ⟨_, rfl, shiftInstr_evolves _ o s⟩
  | lsr o => exact ⟨_, rfl, shiftInstr_evolves _ o s⟩
  | rol o => exact ⟨_, rfl, shiftInstr_evolves _ o s⟩
  | ror o => exact ⟨_, rfl, shiftInstr_evolves _ o s⟩
  | jmp o => exact ⟨_, rfl, (jumpTarget_evolves o s).setPc _⟩
  | jsr target => exact ⟨_, rfl, (push16_evolves _ s).setPc _⟩
  | rts => exact ⟨_, rfl, (pop16_evolves s).setPc _⟩
  | bpl off => exact ⟨_, rfl, branch_evolves _ off s⟩
  | bmi off => exact ⟨_, rfl, branch_evolves _ off s⟩
  | bvc off => exact ⟨_, rfl, branch_evolves _ off s⟩
  | bvs off => exact ⟨_, rfl, branch_evolves _ off s⟩
  | bcc off => exact ⟨_, rfl, branch_evolves _ off s⟩
  | bcs off => exact ⟨_, rfl, branch_evolves _ off s⟩
  | bne off => exact ⟨_, rfl, branch_evolves _ off s⟩
  | beq off => exact ⟨_, rfl, branch_evolves _ off s⟩
  | pha => exact ⟨_, rfl, push8_evolves _ s⟩
  | pla => exact ⟨_, rfl, ((pop8_evolves s).setA _).setZN _⟩
  | php => exact ⟨_, rfl, push8_evolves _ s⟩
  | plp => exact ⟨_, rfl, (pop8_evolves s).setP _⟩
  | clc => exact ⟨_, rfl, (State.Evolves.refl s).setP _⟩
  | sec => exact ⟨_, rfl, (State.Evolves.refl s).setP _⟩
  | cli => exact ⟨_, rfl, (State.Evolves.refl s).setP _⟩
  | sei => exact ⟨_, rfl, (State.Evolves.refl s).setP _⟩
  | cld => exact ⟨_, rfl, (State.Evolves.refl s).setP _⟩
  | sed => exact ⟨_, rfl, (State.Evolves.refl s).setP _⟩
  | clv => exact ⟨_, rfl, (State.Evolves.refl s).setP _⟩
  | nop => exact ⟨_, rfl, .refl s⟩
  | brk => exact ⟨_, rfl, enterTrap_evolves s⟩
  | rti => exact ⟨_, rfl, returnFromTrap_evolves s⟩
  | unimpl op => exact ⟨_, rfl, s.evolves_raise _⟩

end Sys2Proof.Machine
end

