-- ==== Sys2Proof/Laws/PerInstr.lean ====
section
/-! SUPPORT. Facts about every instruction as syntax, one lemma for each constructor of Instr (LAWS.json). -/

namespace Sys2Proof.Laws

/-! Operand assembly undoes the operand bytes of a form. -/

@[simp] theorem eaOperand_bytes (m : EaMode) : eaOperand m.mode (m.bytes.getD 0 0) (m.bytes.getD 1 0) = some m := by
  cases m <;> simp [EaMode.mode, EaMode.bytes, eaOperand]

@[simp] theorem length_eaBytes (m : EaMode) : m.bytes.length = m.mode.operandCount := by
  cases m <;> rfl

theorem eaMode_ne_imm (m : EaMode) : m.mode ≠ .imm := by cases m <;> simp [EaMode.mode]

theorem eaMode_ne_acc (m : EaMode) : m.mode ≠ .acc := by cases m <;> simp [EaMode.mode]

@[simp] theorem srcOperand_bytes (o : Src) : srcOperand o.mode (o.bytes.getD 0 0) (o.bytes.getD 1 0) = some o := by
  cases o with
  | imm b => rfl
  | mem m => rw [Src.mode, Src.bytes, srcOperand, if_neg (eaMode_ne_imm m), eaOperand_bytes]; rfl

@[simp] theorem length_srcBytes (o : Src) : o.bytes.length = o.mode.operandCount := by
  cases o with
  | imm b => rfl
  | mem m => exact length_eaBytes m

@[simp] theorem shiftOperand_bytes (o : ShiftOperand) :
    shiftOperand o.mode (o.bytes.getD 0 0) (o.bytes.getD 1 0) = some o := by
  cases o with
  | acc => rfl
  | mem m => rw [ShiftOperand.mode, ShiftOperand.bytes, shiftOperand, if_neg (eaMode_ne_acc m), eaOperand_bytes]; rfl

@[simp] theorem length_shiftBytes (o : ShiftOperand) : o.bytes.length = o.mode.operandCount := by
  cases o with
  | acc => rfl
  | mem m => exact length_eaBytes m

@[simp] theorem jmpOperand_bytes (o : JmpOperand) : jmpOperand o.mode (o.bytes.getD 0 0) (o.bytes.getD 1 0) = some o := by
  cases o <;> simp [JmpOperand.mode, JmpOperand.bytes, jmpOperand]

@[simp] theorem length_jmpBytes (o : JmpOperand) : o.bytes.length = o.mode.operandCount := by
  cases o <;> rfl

/-- The bytes of an opcode that dispatches to a pair are decoded to the instruction the pair assembles to. -/
theorem decode_of_dispatch {i : Instr} {op : Byte} {operands : List Byte} {k : Mnemonic} {mode : Mode}
    (hd : dispatch op = some (k, mode)) (hn : operands.length = mode.operandCount)
    (ha : assemble k mode (operands.getD 0 0) (operands.getD 1 0) = some i) (rest : List Byte) :
    decode (op :: operands ++ rest) = .ok (i, rest) := by
  have hc : operandCount op = operands.length := by rw [operandCount, hd, hn]
  have hl : ¬ (operands ++ rest).length < operandCount op := by rw [hc, List.length_append]; omega
  rw [List.cons_append, decode, if_neg hl, hc, List.take_left, List.drop_left, decodeInstr, hd]
  simp only [ha, Option.getD_some]

/-- The opcode values the map has no entry for are those R98 lists. -/
theorem dispatch_eq_none_iff : ∀ op : Byte, dispatch op = none ↔ unimplementedOpcodes.contains op = true := by decide

/-- The round trip: a well-formed instruction has an encoding, and it decodes to the instruction with the rest left over. -/
def RoundTrip.Statement (i : Instr) : Prop :=
  i.wf = true → ∃ bs, encode i = some bs ∧ ∀ rest, decode (bs ++ rest) = .ok (i, rest)

namespace RoundTrip

/-- The round trip of an implemented instruction, from three facts: its own encoding table (R130 to R225) and the map (R96) agree
on its mode, it has the operand bytes its mode counts, and assembly undoes them. -/
theorem statement_of_tables {i : Instr} {op : Byte} {k : Mnemonic} (ho : i.opcode = some op)
    (hd : dispatch op = some (k, i.mode)) (hn : i.operandBytes.length = i.mode.operandCount)
    (ha : assemble k i.mode (i.operandBytes.getD 0 0) (i.operandBytes.getD 1 0) = some i) : Statement i :=
  fun _ => ⟨op :: i.operandBytes, by rw [encode, ho]; rfl, decode_of_dispatch hd hn ha⟩

/-- An encoding table and the map agree on a mode. -/
theorem opcode_of_lookup {k : Mnemonic} {mode : Mode} (h : ((encodings k).lookup mode).bind dispatch = some (k, mode)) :
    ∃ op, (encodings k).lookup mode = some op ∧ dispatch op = some (k, mode) := by
  cases hl : (encodings k).lookup mode with
  | none => simp [hl] at h
  | some op => exact ⟨op, rfl, by simpa [hl] using h⟩

theorem lda (o : Src) : Statement (.lda o) := by
  intro h
  obtain ⟨op, ho, hd⟩ := opcode_of_lookup (k := .lda) (mode := o.mode) (by
    revert h; simp only [Instr.wf]; cases o.mode <;> decide)
  exact statement_of_tables ho hd (length_srcBytes o) (congrArg (Option.map Instr.lda) (srcOperand_bytes o)) h

theorem ldx (o : Src) : Statement (.ldx o) := by
  intro h
  obtain ⟨op, ho, hd⟩ := opcode_of_lookup (k := .ldx) (mode := o.mode) (by
    revert h; simp only [Instr.wf]; cases o.mode <;> decide)
  exact statement_of_tables ho hd (length_srcBytes o) (congrArg (Option.map Instr.ldx) (srcOperand_bytes o)) h

theorem ldy (o : Src) : Statement (.ldy o) := by
  intro h
  obtain ⟨op, ho, hd⟩ := opcode_of_lookup (k := .ldy) (mode := o.mode) (by
    revert h; simp only [Instr.wf]; cases o.mode <;> decide)
  exact statement_of_tables ho hd (length_srcBytes o) (congrArg (Option.map Instr.ldy) (srcOperand_bytes o)) h

theorem sta (m : EaMode) : Statement (.sta m) := by
  intro h
  obtain ⟨op, ho, hd⟩ := opcode_of_lookup (k := .sta) (mode := m.mode) (by
    revert h; simp only [Instr.wf]; cases m.mode <;> decide)
  exact statement_of_tables ho hd (length_eaBytes m) (congrArg (Option.map Instr.sta) (eaOperand_bytes m)) h

theorem stx (m : EaMode) : Statement (.stx m) := by
  intro h
  obtain ⟨op, ho, hd⟩ := opcode_of_lookup (k := .stx) (mode := m.mode) (by
    revert h; simp only [Instr.wf]; cases m.mode <;> decide)
  exact statement_of_tables ho hd (length_eaBytes m) (congrArg (Option.map Instr.stx) (eaOperand_bytes m)) h

theorem sty (m : EaMode) : Statement (.sty m) := by
  intro h
  obtain ⟨op, ho, hd⟩ := opcode_of_lookup (k := .sty) (mode := m.mode) (by
    revert h; simp only [Instr.wf]; cases m.mode <;> decide)
  exact statement_of_tables ho hd (length_eaBytes m) (congrArg (Option.map Instr.sty) (eaOperand_bytes m)) h

theorem tax : Statement .tax := statement_of_tables rfl rfl rfl rfl

theorem tay : Statement .tay := statement_of_tables rfl rfl rfl rfl

theorem txa : Statement .txa := statement_of_tables rfl rfl rfl rfl

theorem tya : Statement .tya := statement_of_tables rfl rfl rfl rfl

theorem tsx : Statement .tsx := statement_of_tables rfl rfl rfl rfl

theorem txs : Statement .txs := statement_of_tables rfl rfl rfl rfl

theorem adc (o : Src) : Statement (.adc o) := by
  intro h
  obtain ⟨op, ho, hd⟩ := opcode_of_lookup (k := .adc) (mode := o.mode) (by
    revert h; simp only [Instr.wf]; cases o.mode <;> decide)
  exact statement_of_tables ho hd (length_srcBytes o) (congrArg (Option.map Instr.adc) (srcOperand_bytes o)) h

theorem sbc (o : Src) : Statement (.sbc o) := by
  intro h
  obtain ⟨op, ho, hd⟩ := opcode_of_lookup (k := .sbc) (mode := o.mode) (by
    revert h; simp only [Instr.wf]; cases o.mode <;> decide)
  exact statement_of_tables ho hd (length_srcBytes o) (congrArg (Option.map Instr.sbc) (srcOperand_bytes o)) h

theorem and (o : Src) : Statement (.and o) := by
  intro h
  obtain ⟨op, ho, hd⟩ := opcode_of_lookup (k := .and) (mode := o.mode) (by
    revert h; simp only [Instr.wf]; cases o.mode <;> decide)
  exact statement_of_tables ho hd (length_srcBytes o) (congrArg (Option.map Instr.and) (srcOperand_bytes o)) h

theorem ora (o : Src) : Statement (.ora o) := by
  intro h
  obtain ⟨op, ho, hd⟩ := opcode_of_lookup (k := .ora) (mode := o.mode) (by
    revert h; simp only [Instr.wf]; cases o.mode <;> decide)
  exact statement_of_tables ho hd (length_srcBytes o) (congrArg (Option.map Instr.ora) (srcOperand_bytes o)) h

theorem eor (o : Src) : Statement (.eor o) := by
  intro h
  obtain ⟨op, ho, hd⟩ := opcode_of_lookup (k := .eor) (mode := o.mode) (by
    revert h; simp only [Instr.wf]; cases o.mode <;> decide)
  exact statement_of_tables ho hd (length_srcBytes o) (congrArg (Option.map Instr.eor) (srcOperand_bytes o)) h

theorem bit (m : EaMode) : Statement (.bit m) := by
  intro h
  obtain ⟨op, ho, hd⟩ := opcode_of_lookup (k := .bit) (mode := m.mode) (by
    revert h; simp only [Instr.wf]; cases m.mode <;> decide)
  exact statement_of_tables ho hd (length_eaBytes m) (congrArg (Option.map Instr.bit) (eaOperand_bytes m)) h

theorem cmp (o : Src) : Statement (.cmp o) := by
  intro h
  obtain ⟨op, ho, hd⟩ := opcode_of_lookup (k := .cmp) (mode := o.mode) (by
    revert h; simp only [Instr.wf]; cases o.mode <;> decide)
  exact statement_of_tables ho hd (length_srcBytes o) (congrArg (Option.map Instr.cmp) (srcOperand_bytes o)) h

theorem cpx (o : Src) : Statement (.cpx o) := by
  intro h
  obtain ⟨op, ho, hd⟩ := opcode_of_lookup (k := .cpx) (mode := o.mode) (by
    revert h; simp only [Instr.wf]; cases o.mode <;> decide)
  exact statement_of_tables ho hd (length_srcBytes o) (congrArg (Option.map Instr.cpx) (srcOperand_bytes o)) h

theorem cpy (o : Src) : Statement (.cpy o) := by
  intro h
  obtain ⟨op, ho, hd⟩ := opcode_of_lookup (k := .cpy) (mode := o.mode) (by
    revert h; simp only [Instr.wf]; cases o.mode <;> decide)
  exact statement_of_tables ho hd (length_srcBytes o) (congrArg (Option.map Instr.cpy) (srcOperand_bytes o)) h

theorem inc (m : EaMode) : Statement (.inc m) := by
  intro h
  obtain ⟨op, ho, hd⟩ := opcode_of_lookup (k := .inc) (mode := m.mode) (by
    revert h; simp only [Instr.wf]; cases m.mode <;> decide)
  exact statement_of_tables ho hd (length_eaBytes m) (congrArg (Option.map Instr.inc) (eaOperand_bytes m)) h

theorem dec (m : EaMode) : Statement (.dec m) := by
  intro h
  obtain ⟨op, ho, hd⟩ := opcode_of_lookup (k := .dec) (mode := m.mode) (by
    revert h; simp only [Instr.wf]; cases m.mode <;> decide)
  exact statement_of_tables ho hd (length_eaBytes m) (congrArg (Option.map Instr.dec) (eaOperand_bytes m)) h

theorem inx : Statement .inx := statement_of_tables rfl rfl rfl rfl

theorem iny : Statement .iny := statement_of_tables rfl rfl rfl rfl

theorem dex : Statement .dex := statement_of_tables rfl rfl rfl rfl

theorem dey : Statement .dey := statement_of_tables rfl rfl rfl rfl

theorem asl (o : ShiftOperand) : Statement (.asl o) := by
  intro h
  obtain ⟨op, ho, hd⟩ := opcode_of_lookup (k := .asl) (mode := o.mode) (by
    revert h; simp only [Instr.wf]; cases o.mode <;> decide)
  exact statement_of_tables ho hd (length_shiftBytes o) (congrArg (Option.map Instr.asl) (shiftOperand_bytes o)) h

theorem lsr (o : ShiftOperand) : Statement (.lsr o) := by
  intro h
  obtain ⟨op, ho, hd⟩ := opcode_of_lookup (k := .lsr) (mode := o.mode) (by
    revert h; simp only [Instr.wf]; cases o.mode <;> decide)
  exact statement_of_tables ho hd (length_shiftBytes o) (congrArg (Option.map Instr.lsr) (shiftOperand_bytes o)) h

theorem rol (o : ShiftOperand) : Statement (.rol o) := by
  intro h
  obtain ⟨op, ho, hd⟩ := opcode_of_lookup (k := .rol) (mode := o.mode) (by
    revert h; simp only [Instr.wf]; cases o.mode <;> decide)
  exact statement_of_tables ho hd (length_shiftBytes o) (congrArg (Option.map Instr.rol) (shiftOperand_bytes o)) h

theorem ror (o : ShiftOperand) : Statement (.ror o) := by
  intro h
  obtain ⟨op, ho, hd⟩ := opcode_of_lookup (k := .ror) (mode := o.mode) (by
    revert h; simp only [Instr.wf]; cases o.mode <;> decide)
  exact statement_of_tables ho hd (length_shiftBytes o) (congrArg (Option.map Instr.ror) (shiftOperand_bytes o)) h

theorem jmp (o : JmpOperand) : Statement (.jmp o) := by
  cases o with
  | abs w => exact statement_of_tables rfl rfl rfl (congrArg (Option.map Instr.jmp) (jmpOperand_bytes (.abs w)))
  | ind w => exact statement_of_tables rfl rfl rfl (congrArg (Option.map Instr.jmp) (jmpOperand_bytes (.ind w)))

theorem jsr (target : Addr) : Statement (.jsr target) :=
  statement_of_tables rfl rfl rfl (congrArg (fun w => some (Instr.jsr w)) (word_hi8_lo8 target))

theorem rts : Statement .rts := statement_of_tables rfl rfl rfl rfl

theorem bpl (off : Byte) : Statement (.bpl off) := statement_of_tables rfl rfl rfl rfl

theorem bmi (off : Byte) : Statement (.bmi off) := statement_of_tables rfl rfl rfl rfl

theorem bvc (off : Byte) : Statement (.bvc off) := statement_of_tables rfl rfl rfl rfl

theorem bvs (off : Byte) : Statement (.bvs off) := statement_of_tables rfl rfl rfl rfl

theorem bcc (off : Byte) : Statement (.bcc off) := statement_of_tables rfl rfl rfl rfl

theorem bcs (off : Byte) : Statement (.bcs off) := statement_of_tables rfl rfl rfl rfl

theorem bne (off : Byte) : Statement (.bne off) := statement_of_tables rfl rfl rfl rfl

theorem beq (off : Byte) : Statement (.beq off) := statement_of_tables rfl rfl rfl rfl

theorem pha : Statement .pha := statement_of_tables rfl rfl rfl rfl

theorem pla : Statement .pla := statement_of_tables rfl rfl rfl rfl

theorem php : Statement .php := statement_of_tables rfl rfl rfl rfl

theorem plp : Statement .plp := statement_of_tables rfl rfl rfl rfl

theorem clc : Statement .clc := statement_of_tables rfl rfl rfl rfl

theorem sec : Statement .sec := statement_of_tables rfl rfl rfl rfl

theorem cli : Statement .cli := statement_of_tables rfl rfl rfl rfl

theorem sei : Statement .sei := statement_of_tables rfl rfl rfl rfl

theorem cld : Statement .cld := statement_of_tables rfl rfl rfl rfl

theorem sed : Statement .sed := statement_of_tables rfl rfl rfl rfl

theorem clv : Statement .clv := statement_of_tables rfl rfl rfl rfl

theorem nop : Statement .nop := statement_of_tables rfl rfl rfl rfl

theorem brk : Statement .brk := statement_of_tables rfl rfl rfl rfl

theorem rti : Statement .rti := statement_of_tables rfl rfl rfl rfl

theorem unimpl (op : Byte) : Statement (.unimpl op) := by
  intro h
  have hd : dispatch op = none := (dispatch_eq_none_iff op).2 h
  have hm : op ∈ unimplementedOpcodes := List.contains_iff_mem.1 h
  refine ⟨[op], by simp [encode, Instr.opcode, hm, Instr.operandBytes], fun rest => ?_⟩
  simp [decode, operandCount, decodeInstr, hd]

end RoundTrip

end Sys2Proof.Laws
end

