-- ==== Sys2Proof/Tests/Slice0.lean ====
section
/-! SUPPORT. Tests: the well-formedness smoke, decoding from words written out, single steps with the results of 95_test_vectors.md, and a
witness for the hypotheses of each statement that has some. -/

namespace Sys2Proof.Tests

open Sys2Proof.Machine Sys2Proof.Claims

/-! ## Well-formedness: each check refuses a form its rule does not list, and the encoder gives none for it -/

def refused (i : Instr) : Bool := !i.wf && (encode i).isNone

theorem test_wf_loads :
    refused (.lda (.mem (.zpy 0x10))) ∧ refused (.ldx (.mem (.absx 0x0200))) ∧ refused (.ldy (.mem (.indy 0x10))) := by decide
theorem test_wf_stores : refused (.sta (.zpy 0x10)) ∧ refused (.stx (.zpx 0x10)) ∧ refused (.sty (.absx 0x0200)) := by decide
theorem test_wf_arithmetic :
    refused (.adc (.mem (.zpy 0x10))) ∧ refused (.sbc (.mem (.zpy 0x10))) ∧ refused (.and (.mem (.zpy 0x10))) ∧
      refused (.ora (.mem (.zpy 0x10))) ∧ refused (.eor (.mem (.zpy 0x10))) ∧ refused (.bit (.zpx 0x10)) := by decide
theorem test_wf_compares :
    refused (.cmp (.mem (.zpy 0x10))) ∧ refused (.cpx (.mem (.zpx 0x10))) ∧ refused (.cpy (.mem (.absx 0x0200))) := by decide
theorem test_wf_read_modify_write :
    refused (.inc (.absy 0x0200)) ∧ refused (.dec (.indx 0x10)) ∧ refused (.asl (.mem (.zpy 0x10))) ∧
      refused (.lsr (.mem (.absy 0x0200))) ∧ refused (.rol (.mem (.indy 0x10))) ∧ refused (.ror (.mem (.indx 0x10))) := by decide
theorem test_wf_unimplemented : refused (.unimpl 0xEA) ∧ refused (.unimpl 0x00) := by decide

/-! ## Decoding, from the encodings of 30_encoding.md R96 and of each rule, in bits -/

theorem test_decode_load_store :
    decode [0b10101001, 0x80] = .ok (.lda (.imm 0x80), []) ∧ decode [0b10110110, 0xFF] = .ok (.ldx (.mem (.zpy 0xFF)), []) ∧
    decode [0b10100100, 0x40] = .ok (.ldy (.mem (.zp 0x40)), []) ∧ decode [0b10011001, 0x34, 0x12] = .ok (.sta (.absy 0x1234), []) ∧
    decode [0b10010110, 0x80] = .ok (.stx (.zpy 0x80), []) ∧ decode [0b10001100, 0x00, 0x80] = .ok (.sty (.abs 0x8000), []) :=
  ⟨rfl, rfl, rfl, rfl, rfl, rfl⟩

theorem test_decode_transfers :
    decode [0b10101010] = .ok (.tax, []) ∧ decode [0b10101000] = .ok (.tay, []) ∧ decode [0b10001010] = .ok (.txa, []) ∧
    decode [0b10011000] = .ok (.tya, []) ∧ decode [0b10111010] = .ok (.tsx, []) ∧ decode [0b10011010] = .ok (.txs, []) :=
  ⟨rfl, rfl, rfl, rfl, rfl, rfl⟩

theorem test_decode_arithmetic :
    decode [0b01101001, 0x50] = .ok (.adc (.imm 0x50), []) ∧ decode [0b11110001, 0x20] = .ok (.sbc (.mem (.indy 0x20)), []) ∧
    decode [0b00110101, 0x10] = .ok (.and (.mem (.zpx 0x10)), []) ∧ decode [0b00000001, 0x20] = .ok (.ora (.mem (.indx 0x20)), []) ∧
    decode [0b01001101, 0x34, 0x12] = .ok (.eor (.mem (.abs 0x1234)), []) ∧ decode [0b00100100, 0x10] = .ok (.bit (.zp 0x10), []) ∧
    decode [0b11011101, 0x34, 0x12] = .ok (.cmp (.mem (.absx 0x1234)), []) ∧ decode [0b11100000, 0x05] = .ok (.cpx (.imm 0x05), []) ∧
    decode [0b11000100, 0x10] = .ok (.cpy (.mem (.zp 0x10)), []) ∧ decode [0b11111110, 0x34, 0x12] = .ok (.inc (.absx 0x1234), []) ∧
    decode [0b11010110, 0x10] = .ok (.dec (.zpx 0x10), []) ∧ decode [0b11101000] = .ok (.inx, []) ∧
    decode [0b11001000] = .ok (.iny, []) ∧ decode [0b11001010] = .ok (.dex, []) ∧ decode [0b10001000] = .ok (.dey, []) :=
  ⟨rfl, rfl, rfl, rfl, rfl, rfl, rfl, rfl, rfl, rfl, rfl, rfl, rfl, rfl, rfl⟩

theorem test_decode_shifts :
    decode [0b00001010] = .ok (.asl .acc, []) ∧ decode [0b01010110, 0xFF] = .ok (.lsr (.mem (.zpx 0xFF)), []) ∧
    decode [0b00101110, 0x00, 0x03] = .ok (.rol (.mem (.abs 0x0300)), []) ∧
    decode [0b01111110, 0x00, 0x03] = .ok (.ror (.mem (.absx 0x0300)), []) :=
  ⟨rfl, rfl, rfl, rfl⟩

theorem test_decode_control :
    decode [0b01101100, 0xFF, 0x02] = .ok (.jmp (.ind 0x02FF), []) ∧ decode [0b00100000, 0x10, 0x80] = .ok (.jsr 0x8010, []) ∧
    decode [0b01100000] = .ok (.rts, []) ∧ decode [0b00010000, 0x05] = .ok (.bpl 0x05, []) ∧
    decode [0b00110000, 0xFC] = .ok (.bmi 0xFC, []) ∧ decode [0b01010000, 0x10] = .ok (.bvc 0x10, []) ∧
    decode [0b01110000, 0x10] = .ok (.bvs 0x10, []) ∧ decode [0b10010000, 0x02] = .ok (.bcc 0x02, []) ∧
    decode [0b10110000, 0x80] = .ok (.bcs 0x80, []) ∧ decode [0b11010000, 0xFE] = .ok (.bne 0xFE, []) ∧
    decode [0b11110000, 0x7F] = .ok (.beq 0x7F, []) :=
  ⟨rfl, rfl, rfl, rfl, rfl, rfl, rfl, rfl, rfl, rfl, rfl⟩

theorem test_decode_stack_flags_system :
    decode [0b01001000] = .ok (.pha, []) ∧ decode [0b01101000] = .ok (.pla, []) ∧ decode [0b00001000] = .ok (.php, []) ∧
    decode [0b00101000] = .ok (.plp, []) ∧ decode [0b00011000] = .ok (.clc, []) ∧ decode [0b00111000] = .ok (.sec, []) ∧
    decode [0b01011000] = .ok (.cli, []) ∧ decode [0b01111000] = .ok (.sei, []) ∧ decode [0b11011000] = .ok (.cld, []) ∧
    decode [0b11111000] = .ok (.sed, []) ∧ decode [0b10111000] = .ok (.clv, []) ∧ decode [0b11101010] = .ok (.nop, []) ∧
    decode [0b00000000] = .ok (.brk, []) ∧ decode [0b01000000] = .ok (.rti, []) ∧
    decode [0b10100111, 0x10] = .ok (.unimpl 0xA7, [0x10]) :=
  ⟨rfl, rfl, rfl, rfl, rfl, rfl, rfl, rfl, rfl, rfl, rfl, rfl, rfl, rfl, rfl⟩

/-- Too few bytes are refused by name. -/
theorem test_decode_short :
    decode [] = .error .noOpcode ∧ decode [0x85] = .error (.missingOperand 0x85) ∧
    decode [0x4C, 0x00] = .error (.missingOperand 0x4C) :=
  ⟨rfl, rfl, rfl⟩

/-- The first byte is the low one of a table word (R101). -/
theorem test_decode_table_word :
    decodeTableWord 16 0x80A9 = some (.lda (.imm 0x80)) ∧ decodeTableWord 24 0x80004C = some (.jmp (.abs 0x8000)) ∧
    decodeTableWord 8 0x9D = some (.sta (.absx 0x0000)) := by decide

/-! ## Single steps, with the results of 95_test_vectors.md (V<n>) or worked out by hand from the same rules; code at 0x8000 -/

/-- A machine with code at 0x8000, the interrupt vector 0x8010 and RAM as given. -/
def lab (code : List Byte) (ram : Memory) : State :=
  { State.reset with
    pc := 0x8000, prg := ((Memory.ofBytes 0 code).write 0x3FFE 0x10).write 0x3FFF 0x80, ram := ram }

/-- The status word of a byte image (R28). -/
def flags (v : Byte) : Status := Status.reset.load v false

/-- The step answers a next state with these registers and this status image. -/
def ends (s : State) (a x y sp : Byte) (pc : Addr) (image : Byte) (more : State → Bool := fun _ => true) : Bool :=
  match step s with
  | .next t => t.a == a && t.x == x && t.y == y && t.sp == sp && t.pc == pc && pByte t.p t.p.b == image && more t
  | _ => false

/-- A RAM cell holds a byte. -/
def cell (k : Nat) (v : Byte) (t : State) : Bool := t.ram.read k == v

/-! Addressing modes: V7, V9, V12, V14, V17; `BEQ` across 0x0000 (R124). -/
theorem test_absx_wraps_sixteen_bits :
    ends { lab [0xBD, 0xFF, 0xFF] [(0x001, 0x77)] with x := 0x02 } 0x77 0x02 0x00 0xFD 0x8003 0x34 = true := by decide
theorem test_jmp_indirect_has_no_page_wrap :
    ends (lab [0x6C, 0xFF, 0x02] [(0x200, 0x56), (0x2FF, 0x34), (0x300, 0x12)]) 0 0 0 0xFD 0x1234 0x34 = true := by decide
theorem test_indx_pointer_has_no_page_wrap :
    ends (lab [0xA1, 0xFF] [(0x000, 0x07), (0x0FF, 0x40), (0x100, 0x02), (0x240, 0x21), (0x740, 0x22)])
      0x21 0 0 0xFD 0x8002 0x34 = true := by decide
theorem test_indy_pointer_has_no_page_wrap :
    ends { lab [0xB1, 0xFF] [(0x000, 0x06), (0x100, 0x03), (0x301, 0x4D), (0x601, 0x4E)] with y := 0x01 }
      0x4D 0 0x01 0xFD 0x8002 0x34 = true := by decide
theorem test_bne_back : ends (lab [0xD0, 0x80] []) 0 0 0 0xFD 0x7F82 0x34 = true := by decide
theorem test_beq_wraps :
    ends { lab [] [] with pc := 0x0010, ram := [(0x10, 0xF0), (0x11, 0x80)], p := flags 0x36 } 0 0 0 0xFD 0xFF92 0x36 = true := by
  decide

/-! Loads, stores, transfers: V3, V4, V21, V15, V25, V26, V27 to V32. -/
theorem test_lda_zpx :
    ends { lab [0xB5, 0xF0] [(0x010, 0x55), (0x110, 0xAA)] with x := 0x20 } 0x55 0x20 0 0xFD 0x8002 0x34 = true := by decide
theorem test_ldx_zpy :
    ends { lab [0xB6, 0xFF] [(0x000, 0x33), (0x100, 0x44)] with y := 0x01 } 0 0x33 0x01 0xFD 0x8002 0x34 = true := by decide
theorem test_ldy_zp :
    ends { lab [0xA4, 0x40] [(0x040, 0x01)] with p := flags 0xB6 } 0 0 0x01 0xFD 0x8002 0x34 = true := by decide
theorem test_sta_indy :
    ends { lab [0x91, 0x20] [(0x020, 0x02), (0x021, 0xFF)] with a := 0x77, y := 0xFF }
      0x77 0 0xFF 0xFD 0x8002 0x34 (cell 0x001 0x77) = true := by decide
theorem test_stx_zpy :
    ends { lab [0x96, 0x80] [] with x := 0xAB, y := 0x90 } 0 0xAB 0x90 0xFD 0x8002 0x34 (cell 0x010 0xAB) = true := by decide
theorem test_sty_to_rom :
    ends { lab [0x8C, 0x00, 0x80] [] with y := 0x01 } 0 0 0x01 0xFD 0x8003 0x34
      (fun t => t.report == [.unsupportedWrite 0x8000 0x01] && t.prg.read 0 == 0x8C) = true := by decide
theorem test_tax : ends { lab [0xAA] [] with a := 0x80 } 0x80 0x80 0 0xFD 0x8001 0xB4 = true := by decide
theorem test_tay : ends { lab [0xA8] [] with y := 0x09 } 0 0 0 0xFD 0x8001 0x36 = true := by decide
theorem test_txa : ends { lab [0x8A] [] with a := 0xFF, x := 0x7F, p := flags 0xB4 } 0x7F 0x7F 0 0xFD 0x8001 0x34 = true := by decide
theorem test_tya : ends { lab [0x98] [] with y := 0xFF } 0xFF 0 0xFF 0xFD 0x8001 0xB4 = true := by decide
theorem test_tsx : ends (lab [0xBA] []) 0 0xFD 0 0xFD 0x8001 0xB4 = true := by decide
theorem test_txs : ends (lab [0x9A] []) 0 0 0 0x00 0x8001 0x34 = true := by decide

/-! Arithmetic and logic: V41, V58, V48, V59, V60, V63, V65, V66, V67, V71, V73, V74, V75, V77, V79, V80 to V83. -/
theorem test_adc_overflow_and_carry :
    ends { lab [0x69, 0xFF] [] with a := 0x80 } 0x7F 0 0 0xFD 0x8002 0x75 = true := by decide
theorem test_adc_ignores_decimal :
    ends { lab [0x69, 0x01] [] with a := 0x09, p := flags 0x3C } 0x0A 0 0 0xFD 0x8002 0x3C = true := by decide
theorem test_sbc_overflow :
    ends { lab [0xE9, 0xB0] [] with a := 0x50, p := flags 0x35 } 0xA0 0 0 0xFD 0x8002 0xF4 = true := by decide
theorem test_sbc_ignores_decimal :
    ends { lab [0xE9, 0x01] [] with a := 0x10, p := flags 0x3D } 0x0F 0 0 0xFD 0x8002 0x3D = true := by decide
theorem test_and : ends { lab [0x29, 0x0F] [] with a := 0xF0 } 0x00 0 0 0xFD 0x8002 0x36 = true := by decide
theorem test_ora : ends { lab [0x05, 0x10] [(0x10, 0xF0)] with a := 0x0F } 0xFF 0 0 0xFD 0x8002 0xB4 = true := by decide
theorem test_eor : ends { lab [0x49, 0xFF] [] with a := 0x0F, p := flags 0x75 } 0xF0 0 0 0xFD 0x8002 0xF5 = true := by decide
theorem test_bit_sets : ends { lab [0x24, 0x10] [(0x10, 0xC0)] with a := 0x01 } 0x01 0 0 0xFD 0x8002 0xF6 = true := by decide
theorem test_bit_clears :
    ends { lab [0x24, 0x10] [(0x10, 0x3F)] with a := 0xFF, p := flags 0xF4 } 0xFF 0 0 0xFD 0x8002 0x34 = true := by decide
theorem test_cmp_keeps_v :
    ends { lab [0xC9, 0x00] [] with a := 0x80, p := flags 0x74 } 0x80 0 0 0xFD 0x8002 0xF5 = true := by decide
theorem test_cpx : ends { lab [0xE0, 0x05] [] with x := 0x06 } 0 0x06 0 0xFD 0x8002 0x35 = true := by decide
theorem test_cpy : ends (lab [0xC4, 0x10] [(0x10, 0x01)]) 0 0 0 0xFD 0x8002 0xB4 = true := by decide
theorem test_inc_wraps :
    ends { lab [0xE6, 0x10] [(0x10, 0xFF)] with p := flags 0x35 } 0 0 0 0xFD 0x8002 0x37 (cell 0x10 0x00) = true := by decide
theorem test_inc_rom :
    ends (lab [0xEE, 0x00, 0x80] []) 0 0 0 0xFD 0x8003 0xB4 (fun t => t.report == [.unsupportedWrite 0x8000 0xEF]) = true := by decide
theorem test_dec_absx :
    ends { lab [0xDE, 0xFF, 0x00] [(0x100, 0x01)] with x := 0x01 } 0 0x01 0 0xFD 0x8003 0x36 (cell 0x100 0x00) = true := by decide
theorem test_inx : ends { lab [0xE8] [] with x := 0xFF } 0 0x00 0 0xFD 0x8001 0x36 = true := by decide
theorem test_iny : ends { lab [0xC8] [] with y := 0x7F } 0 0 0x80 0xFD 0x8001 0xB4 = true := by decide
theorem test_dex : ends (lab [0xCA] []) 0 0xFF 0 0xFD 0x8001 0xB4 = true := by decide
theorem test_dey : ends { lab [0x88] [] with y := 0x01 } 0 0 0x00 0xFD 0x8001 0x36 = true := by decide

/-! Shifts: V86, V108, V109, V110, V111. -/
theorem test_asl_a : ends { lab [0x0A] [] with a := 0x40, p := flags 0x35 } 0x80 0 0 0xFD 0x8001 0xB4 = true := by decide
theorem test_asl_memory :
    ends { lab [0x06, 0x10] [(0x10, 0xC0)] with a := 0x33 } 0x33 0 0 0xFD 0x8002 0xB5 (cell 0x10 0x80) = true := by decide
theorem test_lsr_zpx :
    ends { lab [0x56, 0xFF] [(0x01, 0x01)] with x := 0x02 } 0 0x02 0 0xFD 0x8002 0x37 (cell 0x01 0x00) = true := by decide
theorem test_rol_abs :
    ends { lab [0x2E, 0x00, 0x03] [(0x300, 0x7F)] with p := flags 0x35 } 0 0 0 0xFD 0x8003 0xB4 (cell 0x300 0xFF) = true := by decide
theorem test_ror_absx :
    ends { lab [0x7E, 0x00, 0x03] [] with x := 0x10, p := flags 0x35 } 0 0x10 0 0xFD 0x8003 0xB4 (cell 0x310 0x80) = true := by decide

/-! Control flow: V113, V116, V118, V121, V123, V124, V125; `BMI` and `BCS` backwards (R124). -/
theorem test_jmp : ends (lab [0x4C, 0x00, 0x90] []) 0 0 0 0xFD 0x9000 0x34 = true := by decide
theorem test_jsr_wraps_stack :
    ends { lab [0x20, 0x34, 0x12] [] with sp := 0x00 } 0 0 0 0xFE 0x1234 0x34
      (fun t => cell 0x100 0x80 t && cell 0x1FF 0x02 t) = true := by decide
theorem test_rts_wraps :
    ends { lab [0x60] [(0x100, 0xFF), (0x1FF, 0xFF)] with sp := 0xFE } 0 0 0 0x00 0x0000 0x34 = true := by decide
theorem test_bpl_not_taken : ends { lab [0x10, 0x05] [] with p := flags 0xB4 } 0 0 0 0xFD 0x8002 0xB4 = true := by decide
theorem test_bmi : ends { lab [0x30, 0xFC] [] with p := flags 0xB4 } 0 0 0 0xFD 0x7FFE 0xB4 = true := by decide
theorem test_bvc : ends (lab [0x50, 0x10] []) 0 0 0 0xFD 0x8012 0x34 = true := by decide
theorem test_bvs : ends { lab [0x70, 0x10] [] with p := flags 0x74 } 0 0 0 0xFD 0x8012 0x74 = true := by decide
theorem test_bcc : ends (lab [0x90, 0x02] []) 0 0 0 0xFD 0x8004 0x34 = true := by decide
theorem test_bcs : ends { lab [0xB0, 0x80] [] with p := flags 0x35 } 0 0 0 0xFD 0x7F82 0x35 = true := by decide

/-! Stack, flags, system: V130, V132, V134 to V136, V138 to V145, V149, V151; `BRK` at 0x8000 as V147. -/
theorem test_pha_wraps :
    ends { lab [0x48] [] with a := 0x99, sp := 0x00 } 0x99 0 0 0xFF 0x8001 0x34 (cell 0x100 0x99) = true := by decide
theorem test_pla_wraps : ends { lab [0x68] [] with a := 0x11, sp := 0xFF } 0x00 0 0 0x00 0x8001 0x36 = true := by decide
theorem test_php_forces_bit_4 :
    ends { lab [0x08] [] with p := flags 0x21 } 0 0 0 0xFC 0x8001 0x21 (cell 0x1FD 0x31) = true := by decide
theorem test_plp_keeps_b_set : ends { lab [0x28] [(0x1FD, 0xC3)] with sp := 0xFC } 0 0 0 0xFD 0x8001 0xF3 = true := by decide
theorem test_plp_keeps_b_clear :
    ends { lab [0x28] [(0x1FD, 0xFF)] with sp := 0xFC, p := flags 0x24 } 0 0 0 0xFD 0x8001 0xEF = true := by decide
theorem test_clc : ends { lab [0x18] [] with p := flags 0x35 } 0 0 0 0xFD 0x8001 0x34 = true := by decide
theorem test_sec : ends (lab [0x38] []) 0 0 0 0xFD 0x8001 0x35 = true := by decide
theorem test_cli : ends (lab [0x58] []) 0 0 0 0xFD 0x8001 0x30 = true := by decide
theorem test_sei : ends { lab [0x78] [] with p := flags 0x30 } 0 0 0 0xFD 0x8001 0x34 = true := by decide
theorem test_cld : ends { lab [0xD8] [] with p := flags 0x3C } 0 0 0 0xFD 0x8001 0x34 = true := by decide
theorem test_sed : ends (lab [0xF8] []) 0 0 0 0xFD 0x8001 0x3C = true := by decide
theorem test_clv : ends { lab [0xB8] [] with p := flags 0x74 } 0 0 0 0xFD 0x8001 0x34 = true := by decide
theorem test_nop : ends (lab [0xEA] []) 0 0 0 0xFD 0x8001 0x34 = true := by decide
theorem test_brk_wraps_stack :
    ends { lab [0x00] [] with sp := 0x01, p := flags 0x20 } 0 0 0 0xFE 0x8010 0x34
      (fun t => cell 0x101 0x80 t && cell 0x100 0x01 t && cell 0x1FF 0x30 t) = true := by decide
theorem test_rti_loads_b :
    ends { lab [0x40] [(0x1FB, 0xCF), (0x1FD, 0x90)] with sp := 0xFA } 0 0 0 0xFD 0x9000 0xEF = true := by decide
theorem test_unimplemented :
    ends { lab [0xA7, 0x10] [(0x10, 0x99)] with a := 0x55 } 0x55 0 0 0xFD 0x8001 0x34
      (fun t => t.report == [.unsupportedOpcode 0xA7]) = true := by decide

/-! The bus: V153, V157, V159, V160, V161, V165. -/
theorem test_ram_mirror :
    ends { lab [0x8D, 0x34, 0x0A] [] with a := 0x5A } 0x5A 0 0 0xFD 0x8003 0x34
      (fun t => t.peek 0x0234 == some 0x5A && t.peek 0x1A34 == some 0x5A) = true := by decide
theorem test_dma_register :
    ends { lab [0x8D, 0x14, 0x40] [] with a := 0x02 } 0x02 0 0 0xFD 0x8003 0x34 (fun t => t.periph == [.write .dma 0x02]) = true := by
  decide
theorem test_window_g_mirror :
    ends { lab [0x8D, 0x0F, 0x20] [] with a := 0x08 } 0x08 0 0 0xFD 0x8003 0x34
      (fun t => t.periph == [.write (.g 7) 0x08]) = true := by decide
theorem test_unhandled_read :
    ends { lab [0xAD, 0x18, 0x40] [] with a := 0x77 } 0x00 0 0 0xFD 0x8003 0x36
      (fun t => t.report == [.unhandledAddress 0x4018 .read]) = true := by decide
theorem test_unhandled_write :
    ends { lab [0x8D, 0x1F, 0x40] [] with a := 0x77 } 0x77 0 0 0xFD 0x8003 0x34
      (fun t => t.report == [.unhandledAddress 0x401F .write]) = true := by decide
theorem test_two_pages :
    ends { lab [0xAD, 0x05, 0xC0] [] with prgPages := .two, prg := [(0, 0xAD), (1, 0x05), (2, 0xC0), (5, 0xB7), (0x4005, 0x2E)] }
      0x2E 0 0 0xFD 0x8003 0x34 = true := by decide

/-- An instruction placed where the machine fetches next is the one the next step runs, right after reset. -/
theorem test_with_fetch_word :
    ends (State.reset.withFetchWord 16 0x80A9) 0x80 0 0 0xFD 0x0002 0xB4 = true := by decide

/-- A peripheral read gives the oracle's byte, whatever it is (R58), and one transaction. -/
theorem test_peripheral_read :
    step (lab [0xAD, 0xFA, 0x3F] []) = .next
      ((((lab [0xAD, 0xFA, 0x3F] []).setPc 0x8003).transact (.read (.g 2))).setA (Config.periphOracle [.read (.g 2)] (.g 2))
        |>.setZN (Config.periphOracle [.read (.g 2)] (.g 2)) |>.setCyc (Config.cycInit + cycleCost 0xAD)) := rfl

/-! ## Witnesses: each statement's hypotheses, met by a concrete input -/

/-- A page of program bytes. -/
def page (n : Nat) : List Byte := List.replicate n 0xEA

/-- A machine launched with one page, and one with two. -/
theorem launch_one (prg : List Byte) (h : prg.length = 0x4000) (ramInit : Vector Byte 0x800) :
    ∃ t, launch 1 prg ramInit = .next t := by
  unfold launch
  rw [if_pos ⟨rfl, h⟩]
  exact ⟨_, rfl⟩

theorem launch_two (prg : List Byte) (h : prg.length = 0x8000) (ramInit : Vector Byte 0x800) :
    ∃ t, launch 2 prg ramInit = .next t := by
  unfold launch
  rw [if_neg (by omega), if_pos ⟨rfl, h⟩]
  exact ⟨_, rfl⟩

theorem periphAt_g (a : Addr) (k : Fin 8) (h : (decide (0x2000 ≤ a.toNat) && decide (a.toNat ≤ 0x3FFF) &&
    decide (k.val = a.toNat % 8)) = true) : PeriphAt a (.g k) := by
  simp only [Bool.and_eq_true, decide_eq_true_eq] at h
  exact .inl ⟨h.1.1, h.1.2, k, h.2, rfl⟩

theorem periphAt_io (a : Addr) (k : Fin 24) (h : (decide (0x4000 ≤ a.toNat) && decide (a.toNat ≤ 0x4017) &&
    decide (a.toNat ≠ 0x4014) && decide (k.val = a.toNat - 0x4000)) = true) : PeriphAt a (.io k) := by
  simp only [Bool.and_eq_true, decide_eq_true_eq] at h
  exact .inr (.inr ⟨h.1.1.1, h.1.1.2, h.1.2, k, h.2, rfl⟩)

theorem periphAt_dma : PeriphAt 0x4014 .dma := .inr (.inl ⟨rfl, rfl⟩)

theorem witness_DecodeUndoesEncode : (Instr.lda (.mem (.indy 0x20))).wf = true ∧ (Instr.unimpl 0xFF).wf = true := by decide

theorem witness_EncodeUndoesDecode :
    decode [0x85, 0x00, 0xEA] = .ok (.sta (.zp 0x00), [0xEA]) ∧ decode [0xFF] = .ok (.unimpl 0xFF, []) := ⟨rfl, rfl⟩

/-- A three-byte instruction whose bytes lie across 0xFFFF: the opcode in the cartridge, the operand in RAM. -/
def across : State := { lab [] [(0x0000, 0x34), (0x0001, 0x12)] with pc := 0xFFFF, prg := [(0x3FFF, 0xAD)] }

theorem witness_StepRunsTheDecodedInstruction :
    across.poweredOn = true ∧ encode (.lda (.mem (.abs 0x1234))) = some (0xAD :: [0x34, 0x12]) ∧
    ∀ (k : Nat) (h : k < (0xAD :: [0x34, 0x12] : List Byte).length),
      across.peek (across.pc + BitVec.ofNat 16 k) = some (0xAD :: [0x34, 0x12] : List Byte)[k] := by decide

/-- One byte, at an unhandled address: 0x00 is `BRK`. Two and three bytes, the last one at the peripheral address 0x2000, whatever
the peripheral answers. Three bytes across 0xFFFF. -/
theorem witness_StepFetchesThroughTheBus :
    (let s : State := { lab [] [] with pc := 0x4018 }
     s.poweredOn = true ∧ decode [(busRead s.pc s).1] = .ok (.brk, [])) ∧
    (let s : State := { lab [] [(0x7FF, 0xA9)] with pc := 0x1FFF }
     let r0 := busRead s.pc s
     let r1 := busRead (s.pc + 1) r0.2
     s.poweredOn = true ∧ r1.2.periph = [.read (.g 0)] ∧ decode [r0.1, r1.1] = .ok (.lda (.imm r1.1), [])) ∧
    (let s : State := { lab [] [(0x7FE, 0x4C), (0x7FF, 0x34)] with pc := 0x1FFE }
     let r0 := busRead s.pc s
     let r1 := busRead (s.pc + 1) r0.2
     let r2 := busRead (s.pc + 2) r1.2
     s.poweredOn = true ∧ r2.2.periph = [.read (.g 0)] ∧
       decode [r0.1, r1.1, r2.1] = .ok (.jmp (.abs (word r2.1 r1.1)), [])) ∧
    let r0 := busRead across.pc across
    let r1 := busRead (across.pc + 1) r0.2
    let r2 := busRead (across.pc + 2) r1.2
    decode [r0.1, r1.1, r2.1] = .ok (.lda (.mem (.abs 0x1234)), []) :=
  ⟨⟨rfl, rfl⟩, ⟨rfl, rfl, rfl⟩, ⟨rfl, rfl, rfl⟩, rfl⟩

theorem witness_FetchFromUnhandledRunsBrk :
    [0x4018, 0x401F, 0x4020, 0x7FFF].all fun a =>
      let s : State := { lab [] [] with pc := a }
      s.poweredOn && decide (0x4018 ≤ s.pc.toNat) && decide (s.pc.toNat ≤ 0x7FFF) := by decide

theorem witness_StepAnswersNextOnceLaunched :
    (lab [] []).poweredOn = true ∧ ({ lab [] [] with poweredOn := false } : State).poweredOn = false ∧
    (page 0x4000).length = 1 * 0x4000 ∧ (page 0x8000).length = 2 * 0x4000 ∧
    ¬ ((1 = 1 ∨ 1 = 2) ∧ ([] : List Byte).length = 1 * 0x4000) ∧ ¬ ((3 = 1 ∨ 3 = 2) ∧ (page 0xC000).length = 3 * 0x4000) :=
  ⟨rfl, rfl, List.length_replicate, List.length_replicate, by simp, by simp⟩

theorem witness_StepKeepsTheInvariant :
    (lab [0x48] []).inv = true ∧ ∃ t, step (lab [0x48] []) = .next t := ⟨by decide, _, rfl⟩

theorem witness_LaunchedMachineMeetsTheInvariant :
    (∃ t, launch 1 (page 0x4000) (Vector.replicate 0x800 0xCD) = .next t) ∧
    ∃ t, launch 2 (page 0x8000) (Vector.replicate 0x800 0xCD) = .next t :=
  ⟨launch_one _ List.length_replicate _, launch_two _ List.length_replicate _⟩

theorem witness_StepAddsTheCostOfItsOpcode : ∃ t, step (lab [0xA9, 0x42] []) = .next t := ⟨_, rfl⟩

theorem witness_StreamsGrowAndAreNeverRead : ∃ t, step (lab [0x8D, 0x00, 0x80] []) = .next t := ⟨_, rfl⟩

/-- `NOP` is on none of the lists; `RTI` clears `B`. -/
theorem witness_OnlyTheListedInstructionsWriteAFlag :
    (∃ t, exec .nop (lab [] []) = .next t) ∧
    ∃ t, exec .rti (lab [] []) = .next t ∧ (lab [] []).p.b = true ∧ t.p.b = false :=
  ⟨⟨_, rfl⟩, ⟨_, rfl, rfl, by decide⟩⟩

theorem witness_OnlyTheListedInstructionsWriteARegister : ∃ t, exec .nop (lab [] []) = .next t := ⟨_, rfl⟩

theorem witness_OnlyStoresAndPushesChangeMemory :
    (∃ t, exec (.lda (.mem (.zp 0x10))) (lab [] []) = .next t) ∧
    (∃ t, exec (.sta (.abs 0x8000)) (lab [] []) = .next t) ∧ 0x2000 ≤ (0x8000 : Addr).toNat :=
  ⟨⟨_, rfl⟩, ⟨_, rfl⟩, by decide⟩

theorem witness_RamIsMirroredFourTimes :
    (lab [] []).inv = true ∧ SameCell 0x0000 0x1800 ∧ SameCell 0x07FF 0x1FFF ∧
    (∃ t, launch 1 (page 0x4000) (Vector.replicate 0x800 0xCD) = .next t) ∧ (0x1FFF : Addr).toNat ≤ 0x1FFF :=
  ⟨by decide, by unfold SameCell; decide, by unfold SameCell; decide, launch_one _ List.length_replicate _, by decide⟩

/-- The first and the last address of each range, and the two ends of the register window around `DMA`. -/
theorem witness_BusWriteByRange :
    (lab [] []).inv = true ∧ (0x1FFF : Addr).toNat ≤ 0x1FFF ∧ PeriphAt 0x2000 (.g 0) ∧ PeriphAt 0x3FFF (.g 7) ∧
    PeriphAt 0x4000 (.io 0x00) ∧ PeriphAt 0x4013 (.io 0x13) ∧ PeriphAt 0x4014 .dma ∧ PeriphAt 0x4015 (.io 0x15) ∧
    PeriphAt 0x4017 (.io 0x17) ∧ 0x4018 ≤ (0x4018 : Addr).toNat ∧ (0x401F : Addr).toNat ≤ 0x401F ∧
    0x4020 ≤ (0x4020 : Addr).toNat :=
  ⟨by decide, by decide, periphAt_g _ 0 (by decide), periphAt_g _ 7 (by decide), periphAt_io _ 0x00 (by decide),
    periphAt_io _ 0x13 (by decide), periphAt_dma, periphAt_io _ 0x15 (by decide), periphAt_io _ 0x17 (by decide), by decide,
    by decide, by decide⟩

theorem witness_MapperWritesAreReportedAndDropped :
    0x4020 ≤ (0x4020 : Addr).toNat ∧ ∃ t, step (lab [0x8D, 0x00, 0x80] []) = .next t := ⟨by decide, _, rfl⟩

theorem witness_PeripheralReadIsOneTransaction : PeriphAt 0x3FFA (.g 2) ∧ PeriphAt 0x4014 .dma ∧ PeriphAt 0x4016 (.io 0x16) :=
  ⟨periphAt_g _ 2 (by decide), periphAt_dma, periphAt_io _ 0x16 (by decide)⟩

theorem witness_WindowGIsMirroredEveryEightBytes : 0x2000 ≤ (0x3FFF : Addr).toNat ∧ (0x3FFF : Addr).toNat ≤ 0x3FFF := by decide

theorem witness_UnhandledAccessesAreReported :
    0x4018 ≤ (0x7FFF : Addr).toNat ∧ (0x7FFF : Addr).toNat ≤ 0x7FFF ∧ 0x4018 ≤ (0x4018 : Addr).toNat ∧
    (0x401F : Addr).toNat ≤ 0x401F := by decide

theorem witness_MapperShowsTheProgramPages :
    (∃ t, launch 1 (page 0x4000) (Vector.replicate 0x800 0xCD) = .next t) ∧
    (∃ t, launch 2 (page 0x8000) (Vector.replicate 0x800 0xCD) = .next t) ∧ 0x3FFF < 0x4000 :=
  ⟨launch_one _ List.length_replicate _, launch_two _ List.length_replicate _, by decide⟩

/-- A word whose bytes lie across 0xFFFF. -/
theorem witness_SixteenBitReadIsLittleEndian : across.peek 0xFFFF = some 0xAD ∧ across.peek (0xFFFF + 1) = some 0x34 := by decide

theorem witness_PushAndPop :
    ({ lab [] [] with sp := 0x00 } : State).inv = true ∧ (List.replicate 256 (0x48 : Byte)).length = 256 :=
  ⟨by decide, List.length_replicate⟩

theorem witness_PushSixteenThenPopSixteen : ({ lab [] [] with sp := 0x00 } : State).inv = true := by decide

/-- Each clause in turn: memory, a peripheral register, no handler. -/
theorem witness_OperandByForm :
    (lab [] [(0x34, 0x56)]).peek (resolve (.abs 0x1834) (lab [] [(0x34, 0x56)])).1 = some 0x56 ∧
    PeriphAt (resolve (.abs 0x2002) (lab [] [])).1 (.g 2) ∧
    (lab [] []).peek (resolve (.abs 0x4018) (lab [] [])).1 = none ∧
    ∀ reg, ¬ PeriphAt (resolve (.abs 0x4018) (lab [] [])).1 reg := by
  refine ⟨by decide, periphAt_g _ 2 (by decide), by decide, ?_⟩
  have h : (0x4018 : Addr).toNat = 0x4018 := rfl
  rintro reg (⟨-, h', -⟩ | ⟨h', -⟩ | ⟨-, h', -⟩) <;> simp only [resolve, h] at h' <;> omega

theorem witness_StoresWriteTheRegister : (lab [] []).inv = true := by decide

theorem witness_TransfersCopyTheRegister : ∃ t, exec .txs (lab [] []) = .next t ∧ t.sp ≠ (lab [] []).sp := ⟨_, rfl, by decide⟩

theorem witness_IncDecRewriteMemory : (lab [] [(0x7FF, 0x01)]).inv = true := by decide

theorem witness_ShiftsMoveOneBit : (lab [] [(0x7FF, 0x01)]).inv = true := by decide

theorem witness_JmpSetsPc : across.peek 0xFFFF = some 0xAD ∧ across.peek (0xFFFF + 1) = some 0x34 := by decide

/-- V119: `JSR $8010` and an `RTS` there. -/
def caller : State := { lab [0x20, 0x10, 0x80] [] with prg := [(0x0000, 0x20), (0x0001, 0x10), (0x0002, 0x80), (0x0010, 0x60)] }

/-- A `JSR` in the stack page, whose own push overwrites its high operand byte: at 0x01FB with `SP` 0xFD. -/
def selfCaller : State := { lab [] [(0x1FB, 0x20), (0x1FC, 0x34), (0x1FD, 0x12)] with pc := 0x01FB }

theorem witness_JsrPushesTheReturnAddress :
    ({ lab [] [] with sp := 0x00 } : State).inv = true ∧ selfCaller.poweredOn = true ∧ selfCaller.peek selfCaller.pc = some 0x20 ∧
    selfCaller.peek (selfCaller.pc + 1) = some (lo8 0x1234) ∧ selfCaller.peek (selfCaller.pc + 2) = some (hi8 0x1234) := by decide

theorem witness_JsrThenRtsResumesAfterTheCall :
    caller.poweredOn = true ∧ caller.inv = true ∧ caller.peek caller.pc = some 0x20 ∧
    caller.peek (caller.pc + 1) = some (lo8 0x8010) ∧ caller.peek (caller.pc + 2) = some (hi8 0x8010) ∧
    ∃ t, step caller = .next t ∧ t.peek 0x8010 = some 0x60 :=
  ⟨by decide, by decide, by decide, by decide, by decide, _, rfl, by decide⟩

theorem witness_BranchesTestOneFlag : (flags 0xB4).n = true ∧ (flags 0x34).n = false := by decide

theorem witness_PhaPushesA : ({ lab [] [] with sp := 0x00 } : State).inv = true := by decide

theorem witness_PhpPushesTheStatus : ({ lab [] [] with sp := 0x00 } : State).inv = true := by decide

theorem witness_FlagInstructionsWriteOneFlag :
    ∃ t, exec (.adc (.imm 0x50)) { lab [] [] with a := 0x50 } = .next t ∧ (lab [] []).p.v = false ∧ t.p.v = true :=
  ⟨_, rfl, rfl, by decide⟩

theorem witness_NopOnlyAdvances : (lab [0xEA] []).poweredOn = true ∧ (lab [0xEA] []).peek (lab [0xEA] []).pc = some 0xEA := by decide

theorem witness_BrkTakesTheTrap : ({ lab [0x00] [] with sp := 0x01 } : State).inv = true := by decide

/-- A `BRK` whose handler at 0x8010 is an `RTI`. -/
def trapper : State :=
  { lab [] [] with pc := 0x0200, prg := [(0x0010, 0x40), (0x3FFE, 0x10), (0x3FFF, 0x80)], sp := 0x01 }

theorem witness_BrkThenRtiRestores :
    trapper.poweredOn = true ∧ trapper.inv = true ∧ trapper.peek trapper.pc = some 0x00 ∧
    ∃ t, step trapper = .next t ∧ t.peek t.pc = some 0x40 :=
  ⟨by decide, by decide, by decide, _, rfl, by decide⟩

theorem witness_UnimplementedOpcodeIsAReportedNoOp :
    (0x02 : Byte) ∈ unimplementedOpcodes ∧ (0xFF : Byte) ∈ unimplementedOpcodes ∧ (lab [0x02] []).poweredOn = true ∧
    (lab [0x02] []).peek (lab [0x02] []).pc = some 0x02 := by decide

end Sys2Proof.Tests
end

namespace Sys2Proof.Proofs

open Sys2Proof.Machine

/-! ## What a step answers -/

/-- The step of a powered-on machine said once (30_encoding.md R90): the decoded body answers, outside the registers and flags it
and the fetch only evolve the state, and the opcode's cost is added last. -/
theorem step_of_poweredOn {s : State} (h : s.poweredOn = true) :
    ∃ t, exec (fetchInstr s).instr (fetchInstr s).state = .next t ∧ State.Evolves s t ∧
      step s = .next (t.setCyc (t.cyc + cycleCost (fetchInstr s).op)) := by
  obtain ⟨t, hexec, hevolves⟩ := exec_evolves (fetchInstr s).instr (fetchInstr s).state
  exact ⟨t, hexec, (fetchInstr_evolves s).trans hevolves, by rw [step, if_pos h, hexec, chargeCycles]⟩

theorem step_of_not_poweredOn {s : State} (h : s.poweredOn = false) : step s = .refused .stepBeforePowerOn := by
  rw [step, if_neg (by simp [h])]

/-! ## What a launch answers -/

/-- The machine a launch with `p` pages makes. -/
def launched (p : PrgPages) (prg : List Byte) (ramInit : Vector Byte 0x800) : State :=
  { State.reset with
    ram := Memory.ofBytes 0 ramInit.toList, prg := Memory.ofBytes 0 prg, prgPages := p, poweredOn := false }

theorem launch_one_page {prg : List Byte} (h : prg.length = PrgPages.one.size) (ramInit : Vector Byte 0x800) :
    launch 1 prg ramInit = .next (launched .one prg ramInit) :=
  if_pos ⟨rfl, h⟩

theorem launch_two_pages {prg : List Byte} (h : prg.length = PrgPages.two.size) (ramInit : Vector Byte 0x800) :
    launch 2 prg ramInit = .next (launched .two prg ramInit) := by
  rw [launch, if_neg (by simp), if_pos ⟨rfl, h⟩, launched]

/-- The cartridges the machine takes (20_memory.md R60). -/
theorem launch_of_cartridge {pages : Nat} {prg : List Byte}
    (h : (pages = 1 ∨ pages = 2) ∧ prg.length = pages * 0x4000) (ramInit : Vector Byte 0x800) :
    ∃ p : PrgPages, prg.length = p.size ∧ launch pages prg ramInit = .next (launched p prg ramInit) := by
  obtain ⟨rfl | rfl, hlen⟩ := h
  · exact ⟨.one, hlen, launch_one_page hlen ramInit⟩
  · exact ⟨.two, hlen, launch_two_pages hlen ramInit⟩

theorem launch_of_not_cartridge {pages : Nat} {prg : List Byte}
    (h : ¬ ((pages = 1 ∨ pages = 2) ∧ prg.length = pages * 0x4000)) (ramInit : Vector Byte 0x800) :
    launch pages prg ramInit = .refused .badCartridge := by
  have not_one : ¬ (pages = 1 ∧ prg.length = PrgPages.one.size) := by
    rintro ⟨rfl, hlen⟩
    exact h ⟨.inl rfl, hlen⟩
  have not_two : ¬ (pages = 2 ∧ prg.length = PrgPages.two.size) := by
    rintro ⟨rfl, hlen⟩
    exact h ⟨.inr rfl, hlen⟩
  rw [launch, if_neg not_one, if_neg not_two]

/-- Settles O8: every body answers a next state and keeps the power state; the refusals are the other branch of `step` and of
`launch`. -/
theorem stepAnswersNextOnceLaunched : Obligations.StepAnswersNextOnceLaunched := by
  unfold Obligations.StepAnswersNextOnceLaunched
  refine ⟨fun s h => ?_, fun s h => step_of_not_poweredOn h, fun pages prg ramInit => ⟨fun h => ?_, fun h => ?_⟩⟩
  · obtain ⟨t, -, hevolves, hstep⟩ := step_of_poweredOn h
    exact ⟨_, hstep, by rw [State.setCyc_poweredOn, hevolves.poweredOn, h]⟩
  · obtain ⟨p, -, hlaunch⟩ := launch_of_cartridge h ramInit
    exact ⟨_, hlaunch, rfl⟩
  · exact launch_of_not_cartridge h ramInit

end Sys2Proof.Proofs

namespace Sys2Proof.Proofs

open Sys2Proof.Machine Sys2Proof.Claims

/-! ## The byte image of the status word

An image is its flags appended bit by bit (`pByte`): a lower flag doubles the number of those above it and moves their bits up by one. -/

theorem toNat_append_ofBool {n : Nat} (x : BitVec n) (b : Bool) : (x ++ BitVec.ofBool b).toNat = 2 * x.toNat + b.toNat := by
  rw [BitVec.toNat_append, BitVec.toNat_ofBool, ← Nat.shiftLeft_add_eq_or_of_lt (Bool.toNat_lt b), Nat.shiftLeft_eq]
  omega

theorem getLsbD_append_ofBool_zero {n : Nat} (x : BitVec n) (b : Bool) : (x ++ BitVec.ofBool b).getLsbD 0 = b := by
  rw [BitVec.getLsbD_append, if_pos Nat.one_pos, BitVec.getLsbD_ofBool, decide_eq_true rfl, Bool.true_and]

theorem getLsbD_append_ofBool_succ {n : Nat} (x : BitVec n) (b : Bool) (k : Nat) :
    (x ++ BitVec.ofBool b).getLsbD (k + 1) = x.getLsbD k := by
  rw [BitVec.getLsbD_append, if_neg (by omega), Nat.add_sub_cancel]

/-- Bit 5 of an image is 1 (10_state.md R26). -/
theorem one_eq_ofBool_true : 1#1 = BitVec.ofBool true := rfl

theorem pByte_statusImage (p : Status) (b4 : Bool) : StatusImage p b4 (pByte p b4) := by
  simp only [StatusImage, pByte, one_eq_ofBool_true, toNat_append_ofBool, BitVec.toNat_ofBool, Bool.toNat_true]
  omega

theorem load_pByte (p : Status) : p.load (pByte p p.b) false = p := by
  have n_bit : (BitVec.ofBool p.n).getLsbD 0 = p.n := by simp
  simp only [Status.load, pByte, one_eq_ofBool_true, getLsbD_append_ofBool_succ, getLsbD_append_ofBool_zero, n_bit, ite_self]

/-- Settles O27: each flag stands at its own bit of the image, and a load reads it there. -/
theorem statusImageAndLoad : Obligations.StatusImageAndLoad := by
  unfold Obligations.StatusImageAndLoad
  exact ⟨pByte_statusImage, fun p v => ⟨rfl, rfl⟩, load_pByte⟩

/-! ## The stack -/

/-- The addresses that show the stack location of `sp` are those of RAM cell `0x100 + sp`. -/
theorem sameCell_stackAddr_iff {sp : Byte} {b : Addr} :
    SameCell (stackAddr sp) b ↔ b.toNat ≤ 0x1FFF ∧ b.toNat % 0x800 = 0x100 + sp.toNat := by
  have hsp := sp.isLt
  rw [SameCell, stackAddr_toNat]
  omega

/-- What a stack cell reads as, every address that shows it reads as. -/
theorem holds_of_read {t : State} {sp v : Byte} (h : t.ram.read (0x100 + sp.toNat) = v) : Holds t (stackAddr sp) v := by
  intro b hb
  obtain ⟨hram, hcell⟩ := sameCell_stackAddr_iff.mp hb
  rw [peek_ram hram, hcell, h]

theorem push8_sp (v : Byte) (s : State) : (push8 v s).sp = s.sp - 1 := by
  rw [push8_eq, State.setSp_sp]

theorem push8_holds {s : State} (h : s.ram.wf = true) (v : Byte) : Holds (push8 v s) (stackAddr s.sp) v :=
  holds_of_read (by rw [push8_eq, State.setSp_ram, State.setRam_ram, Memory.read_write_same h])

theorem push8_memoryKeptBut (v : Byte) (s : State) : MemoryKeptBut (stackAddr s.sp) s (push8 v s) := by
  intro b hb
  rw [push8_eq, State.peek_setSp, peek_setRam_other fun hram hcell => hb (sameCell_stackAddr_iff.mpr ⟨hram, hcell⟩)]

/-- Pushing a list of bytes lowers `SP` by its length, modulo 0x100. -/
theorem foldl_push8_sp (vs : List Byte) (s : State) :
    (vs.foldl (fun t v => push8 v t) s).sp = s.sp - BitVec.ofNat 8 vs.length := by
  induction vs generalizing s with
  | nil => exact (BitVec.sub_zero s.sp).symm
  | cons v vs ih =>
    rw [List.foldl_cons, ih, push8_sp, BitVec.sub_sub, List.length_cons, Nat.add_comm, BitVec.ofNat_add]
    rfl

/-- Settles O25: the push and the pop in full are `push8_eq` and `pop8_eq`; 256 decrements are none modulo 0x100. -/
theorem pushAndPop : Obligations.PushAndPop := by
  unfold Obligations.PushAndPop
  refine ⟨fun v s hs => ⟨stackAddr_toNat s.sp, push8_holds (wf_of_inv hs) v, push8_memoryKeptBut v s, ?_⟩,
    fun s => ⟨_, peek_stack (s.sp + 1) s, pop8_eq s⟩, fun vs s hlen => ?_⟩
  · rw [push8_eq]
    rfl
  · rw [foldl_push8_sp, hlen]
    exact BitVec.sub_zero s.sp

theorem push16_sp (v : Addr) (s : State) : (push16 v s).sp = s.sp - 2 := by
  rw [push16_eq, State.setSp_sp]

/-- A stack cell is not the one below it, also across the wrap of `SP`. -/
theorem stackCell_ne_pred (sp : Byte) : 0x100 + sp.toNat ≠ 0x100 + (sp - 1).toNat := by
  bv_omega

/-- The two cells of a 16-bit push differ, so each holds its own byte afterwards. -/
theorem push16_read {s : State} (h : s.ram.wf = true) (v : Addr) :
    (push16 v s).ram.read (0x100 + s.sp.toNat) = hi8 v ∧ (push16 v s).ram.read (0x100 + (s.sp - 1).toNat) = lo8 v := by
  rw [push16_eq, State.setSp_ram, State.setRam_ram]
  constructor
  · rw [Memory.read_write_other _ _ (stackCell_ne_pred s.sp), Memory.read_write_same h]
  · exact Memory.read_write_same (Memory.wf_write h _ _) _ _

theorem pop16_push16 {s : State} (h : s.ram.wf = true) (v : Addr) : pop16 (push16 v s) = (v, (push16 v s).setSp s.sp) := by
  obtain ⟨hhi, hlo⟩ := push16_read h v
  have low : s.sp - 2 + 1 = s.sp - 1 := by bv_omega
  have high : s.sp - 2 + 2 = s.sp := by bv_omega
  rw [pop16_eq, push16_sp, low, high, hhi, hlo, word_hi8_lo8]

/-- Settles O26: the second push goes to another cell than the first, so the pops find both bytes. -/
theorem pushSixteenThenPopSixteen : Obligations.PushSixteenThenPopSixteen := by
  unfold Obligations.PushSixteenThenPopSixteen
  intro v s hs
  obtain ⟨hhi, hlo⟩ := push16_read (wf_of_inv hs) v
  exact ⟨holds_of_read hhi, holds_of_read hlo, push16_sp v s, pop16_push16 (wf_of_inv hs) v⟩

/-! ## Which instructions write a flag or a register

Reading an operand, writing to the bus and a branch's condition leave the registers and flags; what an instruction then sets stands in
its body. -/

section
variable (s : State)

@[simp] theorem busRead_registers (a : Addr) :
    (busRead a s).2.a = s.a ∧ (busRead a s).2.x = s.x ∧ (busRead a s).2.y = s.y ∧ (busRead a s).2.sp = s.sp ∧
      (busRead a s).2.pc = s.pc ∧ (busRead a s).2.p = s.p := by
  obtain ⟨rs, es, h⟩ := busRead_effect a s
  simp [h]

@[simp] theorem busWrite_registers (a : Addr) (v : Byte) :
    (busWrite a v s).a = s.a ∧ (busWrite a v s).x = s.x ∧ (busWrite a v s).y = s.y ∧ (busWrite a v s).sp = s.sp ∧
      (busWrite a v s).pc = s.pc ∧ (busWrite a v s).p = s.p := by
  rcases busWrite_effect a v s with ⟨k, -, h⟩ | ⟨r, h⟩ | ⟨e, h⟩ <;> simp [h]

@[simp] theorem readOperand_registers (o : Src) :
    (readOperand o s).2.a = s.a ∧ (readOperand o s).2.x = s.x ∧ (readOperand o s).2.y = s.y ∧
      (readOperand o s).2.sp = s.sp ∧ (readOperand o s).2.pc = s.pc ∧ (readOperand o s).2.p = s.p := by
  obtain ⟨rs, es, h⟩ := readOperand_effect o s
  simp [h]

@[simp] theorem jumpTarget_registers (o : JmpOperand) :
    (jumpTarget o s).2.a = s.a ∧ (jumpTarget o s).2.x = s.x ∧ (jumpTarget o s).2.y = s.y ∧
      (jumpTarget o s).2.sp = s.sp ∧ (jumpTarget o s).2.p = s.p := by
  obtain ⟨rs, es, h⟩ := jumpTarget_effect o s
  simp [h]

@[simp] theorem branch_registers (cond : Bool) (off : Byte) :
    (branch cond off s).a = s.a ∧ (branch cond off s).x = s.x ∧ (branch cond off s).y = s.y ∧
      (branch cond off s).sp = s.sp ∧ (branch cond off s).p = s.p := by
  cases cond <;> simp [branch]

/-- A shift writes no register but `A` and no flag but `C`, `Z` and `N` (43_shift_rotate.md R180). -/
@[simp] theorem shiftInstr_registers (kind : ShiftKind) (o : ShiftOperand) :
    (shiftInstr kind o s).x = s.x ∧ (shiftInstr kind o s).y = s.y ∧ (shiftInstr kind o s).sp = s.sp ∧
      (shiftInstr kind o s).pc = s.pc ∧ (shiftInstr kind o s).p.i = s.p.i ∧ (shiftInstr kind o s).p.d = s.p.d ∧
      (shiftInstr kind o s).p.b = s.p.b ∧ (shiftInstr kind o s).p.v = s.p.v := by
  cases o <;> simp [shiftInstr]

end

/-- Settles O13: one case for each set of flags that a body writes. -/
theorem onlyTheListedInstructionsWriteAFlag : Obligations.OnlyTheListedInstructionsWriteAFlag := by
  unfold Obligations.OnlyTheListedInstructionsWriteAFlag
  intro i s t h
  cases i with
  -- no flag
  | sta m | stx m | sty m | jmp o | bpl off | bmi off | bvc off | bvs off | bcc off | bcs off | bne off | beq off
  | txs | nop | unimpl op =>
    cases h
    simp
  | jsr target | rts | pha | php =>
    cases h
    simp [push8_eq, push16_eq, pop16_eq]
  -- `Z` and `N`
  | lda o | ldx o | ldy o | and o | ora o | eor o | inc m | dec m
  | tax | tay | txa | tya | tsx | inx | iny | dex | dey | pla =>
    cases h
    simp [Instr.kind, pop8_eq]
  -- `C`, `Z` and `N`
  | cmp o | cpx o | cpy o =>
    cases h
    simp [Instr.kind, Status.compare]
  -- the same of a shift, and `V` with them of a sum; one flag
  | asl o | lsr o | rol o | ror o | adc o | sbc o
  | clc | sec | cli | sei | cld | sed | clv =>
    cases h
    simp [Instr.kind]
  -- `Z`, `N` and `V`
  | bit m =>
    cases h
    simp [Instr.kind, Status.bitTest]
  -- `B` and `I`
  | brk =>
    obtain rfl : enterTrap s = t := Host.Outcome.next.inj h
    simp [Instr.kind, enterTrap_eq, push8_eq, push16_eq]
  -- all but `B`
  | plp =>
    cases h
    simp [Instr.kind, pop8_eq, Status.load, plpKeepsB]
  -- all
  | rti =>
    obtain rfl : returnFromTrap s = t := Host.Outcome.next.inj h
    simp [Instr.kind]

/-- Settles O14: one case for each set of registers that a body writes. -/
theorem onlyTheListedInstructionsWriteARegister : Obligations.OnlyTheListedInstructionsWriteARegister := by
  unfold Obligations.OnlyTheListedInstructionsWriteARegister
  intro i s t h
  cases i with
  -- no register
  | sta m | stx m | sty m | cmp o | cpx o | cpy o | bit m | inc m | dec m
  | clc | sec | cli | sei | cld | sed | clv | nop | unimpl op =>
    cases h
    simp
  -- one register: `A`, then `X`, `Y`, `PC`
  | lda o | adc o | sbc o | and o | ora o | eor o | asl o | lsr o | rol o | ror o | txa | tya
  | ldx o | tax | tsx | inx | dex
  | ldy o | tay | iny | dey
  | jmp o | bpl off | bmi off | bvc off | bvs off | bcc off | bcs off | bne off | beq off =>
    cases h
    simp [Instr.kind]
  -- `SP`, and `A` or `PC` with it
  | txs | pha | php | pla | plp =>
    cases h
    simp [Instr.kind, push8_eq, pop8_eq]
  | jsr target | rts =>
    cases h
    simp [Instr.kind, push16_eq, pop16_eq]
  | brk =>
    obtain rfl : enterTrap s = t := Host.Outcome.next.inj h
    simp [Instr.kind, enterTrap_eq, push8_eq, push16_eq]
  | rti =>
    obtain rfl : returnFromTrap s = t := Host.Outcome.next.inj h
    simp [Instr.kind, returnFromTrap_eq]

/-! ## The streams and the cycle counter -/

/-- The state with `n` more cycles counted and the records `rs` reported before all of its own. -/
def withPast (n : Nat) (rs : List Report) (s : State) : State := { s with cyc := n + s.cyc, report := rs ++ s.report }

section
variable (n : Nat) (rs : List Report) (s : State)

/-! The past passes through every named update; the two that append, `raise` and the cost, append behind it. -/

@[simp] theorem withPast_setA (v : Byte) : (withPast n rs s).setA v = withPast n rs (s.setA v) := rfl
@[simp] theorem withPast_setX (v : Byte) : (withPast n rs s).setX v = withPast n rs (s.setX v) := rfl
@[simp] theorem withPast_setY (v : Byte) : (withPast n rs s).setY v = withPast n rs (s.setY v) := rfl
@[simp] theorem withPast_setSp (v : Byte) : (withPast n rs s).setSp v = withPast n rs (s.setSp v) := rfl
@[simp] theorem withPast_setPc (v : Addr) : (withPast n rs s).setPc v = withPast n rs (s.setPc v) := rfl
@[simp] theorem withPast_setP (v : Status) : (withPast n rs s).setP v = withPast n rs (s.setP v) := rfl
@[simp] theorem withPast_setZN (v : Byte) : (withPast n rs s).setZN v = withPast n rs (s.setZN v) := rfl
@[simp] theorem withPast_setRam (m : Memory) : (withPast n rs s).setRam m = withPast n rs (s.setRam m) := rfl
@[simp] theorem withPast_transact (e : PeriphEvent) : (withPast n rs s).transact e = withPast n rs (s.transact e) := rfl

@[simp] theorem withPast_raise (r : Report) : (withPast n rs s).raise r = withPast n rs (s.raise r) := by
  simp only [State.raise, withPast, List.append_assoc]

/-! Every field that an instruction reads is the same. -/

@[simp] theorem withPast_a : (withPast n rs s).a = s.a := rfl
@[simp] theorem withPast_x : (withPast n rs s).x = s.x := rfl
@[simp] theorem withPast_y : (withPast n rs s).y = s.y := rfl
@[simp] theorem withPast_sp : (withPast n rs s).sp = s.sp := rfl
@[simp] theorem withPast_pc : (withPast n rs s).pc = s.pc := rfl
@[simp] theorem withPast_p : (withPast n rs s).p = s.p := rfl
@[simp] theorem withPast_ram : (withPast n rs s).ram = s.ram := rfl
@[simp] theorem withPast_prg : (withPast n rs s).prg = s.prg := rfl
@[simp] theorem withPast_prgPages : (withPast n rs s).prgPages = s.prgPages := rfl
@[simp] theorem withPast_poweredOn : (withPast n rs s).poweredOn = s.poweredOn := rfl

/-! The shared operations read neither `CYC` nor `REPORT`, so the past passes through them too. -/

@[simp] theorem busRead_withPast (a : Addr) :
    busRead a (withPast n rs s) = ((busRead a s).1, withPast n rs (busRead a s).2) := by
  unfold busRead
  cases route a with
  | ram cell => rfl
  | periph reg => rfl
  | unhandled => simp [unhandledRead]
  | mapper =>
    simp only [mapperRead, withPast_prgPages, withPast_prg]
    cases prgIndex s.prgPages a with
    | none => simp [unhandledRead]
    | some k => rfl

@[simp] theorem busWrite_withPast (a : Addr) (v : Byte) :
    busWrite a v (withPast n rs s) = withPast n rs (busWrite a v s) := by
  unfold busWrite
  cases route a <;> simp

@[simp] theorem memRead16_withPast (a : Addr) :
    memRead16 a (withPast n rs s) = ((memRead16 a s).1, withPast n rs (memRead16 a s).2) := by
  simp only [memRead16, busRead_withPast]

@[simp] theorem resolve_withPast (m : EaMode) :
    resolve m (withPast n rs s) = ((resolve m s).1, withPast n rs (resolve m s).2) := by
  cases m <;> simp [resolve]

@[simp] theorem readOperand_withPast (o : Src) :
    readOperand o (withPast n rs s) = ((readOperand o s).1, withPast n rs (readOperand o s).2) := by
  cases o <;> simp [readOperand]

@[simp] theorem jumpTarget_withPast (o : JmpOperand) :
    jumpTarget o (withPast n rs s) = ((jumpTarget o s).1, withPast n rs (jumpTarget o s).2) := by
  cases o <;> simp [jumpTarget]

@[simp] theorem push8_withPast (v : Byte) : push8 v (withPast n rs s) = withPast n rs (push8 v s) := by
  simp [push8]

@[simp] theorem push16_withPast (v : Addr) : push16 v (withPast n rs s) = withPast n rs (push16 v s) := by
  simp [push16]

@[simp] theorem pop8_withPast : pop8 (withPast n rs s) = ((pop8 s).1, withPast n rs (pop8 s).2) := by
  simp [pop8]

@[simp] theorem pop16_withPast : pop16 (withPast n rs s) = ((pop16 s).1, withPast n rs (pop16 s).2) := by
  simp [pop16]

@[simp] theorem enterTrap_withPast : enterTrap (withPast n rs s) = withPast n rs (enterTrap s) := by
  simp [enterTrap]

@[simp] theorem returnFromTrap_withPast : returnFromTrap (withPast n rs s) = withPast n rs (returnFromTrap s) := by
  simp [returnFromTrap]

@[simp] theorem shiftInstr_withPast (kind : ShiftKind) (o : ShiftOperand) :
    shiftInstr kind o (withPast n rs s) = withPast n rs (shiftInstr kind o s) := by
  cases o <;> simp [shiftInstr]

@[simp] theorem branch_withPast (cond : Bool) (off : Byte) :
    branch cond off (withPast n rs s) = withPast n rs (branch cond off s) := by
  cases cond <;> simp [branch, branchTarget]

@[simp] theorem fetch8_withPast : fetch8 (withPast n rs s) = ((fetch8 s).1, withPast n rs (fetch8 s).2) := by
  simp [fetch8]

@[simp] theorem fetchBytes_withPast (k : Nat) :
    fetchBytes k (withPast n rs s) = ((fetchBytes k s).1, withPast n rs (fetchBytes k s).2) := by
  induction k generalizing s with
  | zero => rfl
  | succ k ih => simp only [fetchBytes, fetch8_withPast, ih]

/-- No instruction body reads `CYC` or `REPORT` (10_state.md R33, R34). -/
theorem exec_withPast (i : Instr) : exec i (withPast n rs s) = mapNext (withPast n rs) (exec i s) := by
  cases i with
  | tax | tay | txa | tya | tsx | txs | inx | iny | dex | dey | clc | sec | cli | sei | cld | sed | clv | nop => rfl
  | lda o | ldx o | ldy o => simp [exec, execLda, execLdx, execLdy, mapNext]
  | adc o | sbc o | and o | ora o | eor o => simp [exec, execAdc, execSbc, execAnd, execOra, execEor, mapNext]
  | cmp o | cpx o | cpy o | bit o => simp [exec, execCmp, execCpx, execCpy, execBit, mapNext]
  | sta m | stx m | sty m => simp [exec, execSta, execStx, execSty, mapNext]
  | inc m | dec m => simp [exec, execInc, execDec, mapNext]
  | asl o | lsr o | rol o | ror o => simp [exec, execAsl, execLsr, execRol, execRor, mapNext]
  | jmp o => simp [exec, execJmp, mapNext]
  | jsr target => simp [exec, execJsr, mapNext]
  | rts => simp [exec, execRts, mapNext]
  | bpl off | bmi off | bvc off | bvs off => simp [exec, execBpl, execBmi, execBvc, execBvs, mapNext]
  | bcc off | bcs off | bne off | beq off => simp [exec, execBcc, execBcs, execBne, execBeq, mapNext]
  | pha | pla | php | plp => simp [exec, execPha, execPla, execPhp, execPlp, mapNext]
  | brk | rti => simp [exec, execBrk, execRti, mapNext]
  | unimpl op => simp [exec, execUnimpl, mapNext]

theorem fetchInstr_withPast :
    fetchInstr (withPast n rs s) = { fetchInstr s with state := withPast n rs (fetchInstr s).state } := by
  simp only [fetchInstr, fetch8_withPast, fetchBytes_withPast]

theorem chargeCycles_mapNext_withPast (op : Byte) (r : Result) :
    chargeCycles op (mapNext (withPast n rs) r) = mapNext (withPast n rs) (chargeCycles op r) := by
  cases r with
  | next t => simp only [mapNext, chargeCycles, withPast, State.setCyc, Nat.add_assoc]
  | fault f => rfl
  | refused f => rfl

theorem step_withPast : step (withPast n rs s) = mapNext (withPast n rs) (step s) := by
  unfold step
  rw [withPast_poweredOn, fetchInstr_withPast, exec_withPast, chargeCycles_mapNext_withPast]
  split <;> rfl

end

/-- Settles O12: the fetch, the body and the cost only append to the streams, and each commutes with a longer past. -/
theorem streamsGrowAndAreNeverRead : Obligations.StreamsGrowAndAreNeverRead := by
  unfold Obligations.StreamsGrowAndAreNeverRead
  refine ⟨fun s t h => ?_, fun s n rs => step_withPast n rs s⟩
  cases hon : s.poweredOn with
  | false => cases (step_of_not_poweredOn hon).symm.trans h
  | true =>
    obtain ⟨u, -, hevolves, hstep⟩ := step_of_poweredOn hon
    cases hstep.symm.trans h
    exact ⟨hevolves.report, hevolves.periph⟩

end Sys2Proof.Proofs

namespace Sys2Proof.Proofs

open Sys2Proof.Machine Sys2Proof.Claims

/-! ## The data invariant -/

theorem inv_iff {s : State} :
    s.inv = true ↔
      s.ram.wf = true ∧ s.ram.below 0x800 = true ∧ s.prg.wf = true ∧ s.prg.below s.prgPages.size = true := by
  simp only [State.inv, Bool.and_eq_true, and_assoc]

/-- RAM stores below 0x800 keep the canonical form, and the cartridge is the same. -/
theorem inv_of_evolves {s t : State} (h : State.Evolves s t) (hs : s.inv = true) : t.inv = true := by
  obtain ⟨hwf, hbelow, hprg, hsize⟩ := inv_iff.mp hs
  refine inv_iff.mpr ⟨h.ram.keeps_wf hwf, h.ram.keeps_below hbelow, ?_, ?_⟩
  · rw [h.prg, hprg]
  · rw [h.prg, h.prgPages, hsize]

theorem inv_setCyc (s : State) (n : Nat) : (s.setCyc n).inv = s.inv := rfl

/-- What a step that answers a next state can do outside the registers and flags. -/
theorem evolves_of_step {s t : State} (h : step s = .next t) : ∃ u n, State.Evolves s u ∧ t = u.setCyc n := by
  cases hon : s.poweredOn with
  | false => cases (step_of_not_poweredOn hon).symm.trans h
  | true =>
    obtain ⟨u, -, hevolves, hstep⟩ := step_of_poweredOn hon
    exact ⟨u, _, hevolves, (Host.Outcome.next.inj (hstep.symm.trans h)).symm⟩

/-- Settles O9: a step only evolves the state outside the registers and flags, and the invariant does not look at the cost it adds. -/
theorem stepKeepsTheInvariant : Obligations.StepKeepsTheInvariant := by
  unfold Obligations.StepKeepsTheInvariant
  intro s t hs h
  obtain ⟨u, n, hevolves, rfl⟩ := evolves_of_step h
  rw [inv_setCyc]
  exact inv_of_evolves hevolves hs

/-- The machine after `POWER_ON`, said through its vector: that read has no side effect (70_reset_and_hazards.md R270). -/
theorem powerOn_eq (s : State) :
    powerOn s = { s with
      a := 0x00, x := 0x00, y := 0x00, sp := 0xFD, pc := (powerOn s).pc, p := Status.reset, cyc := Config.cycInit,
      poweredOn := true } := by
  simp only [powerOn, (memRead16_vector_state _).2]
  rfl

theorem powerOn_ram (s : State) : (powerOn s).ram = s.ram := by
  rw [powerOn_eq]

theorem inv_powerOn {s : State} (h : s.inv = true) : (powerOn s).inv = true := by
  rw [powerOn_eq]
  exact h

/-- The only machines a launch makes (20_memory.md R60). -/
theorem launch_cases {pages : Nat} {prg : List Byte} {ramInit : Vector Byte 0x800} {t : State}
    (h : launch pages prg ramInit = .next t) :
    ∃ p : PrgPages, prg.length = p.size ∧ t = launched p prg ramInit ∧ (pages = 1 → p = .one) ∧ (pages = 2 → p = .two) := by
  rw [launch] at h
  split at h
  · next hone => exact ⟨.one, hone.2, (Host.Outcome.next.inj h).symm, fun _ => rfl, by omega⟩
  · split at h
    · next htwo => exact ⟨.two, htwo.2, (Host.Outcome.next.inj h).symm, by omega, fun _ => rfl⟩
    · cases h

theorem inv_launched {p : PrgPages} {prg : List Byte} (h : prg.length = p.size) (ramInit : Vector Byte 0x800) :
    (launched p prg ramInit).inv = true := by
  have hram := Memory.below_ofBytes 0 ramInit.toList
  have hprg := Memory.below_ofBytes 0 prg
  rw [Nat.zero_add, Vector.length_toList] at hram
  rw [Nat.zero_add, h] at hprg
  exact inv_iff.mpr ⟨Memory.wfFrom_ofBytes 0 ramInit.toList, hram, Memory.wfFrom_ofBytes 0 prg, hprg⟩

/-- Settles O10: a store made of a list of bytes is canonical and ends with the list; `POWER_ON` writes no memory. -/
theorem launchedMachineMeetsTheInvariant : Obligations.LaunchedMachineMeetsTheInvariant := by
  unfold Obligations.LaunchedMachineMeetsTheInvariant
  refine ⟨rfl, fun pages prg ramInit t h => ?_⟩
  obtain ⟨p, hlen, rfl, -, -⟩ := launch_cases h
  exact ⟨inv_launched hlen ramInit, inv_powerOn (inv_launched hlen ramInit)⟩

/-! ## What changes memory

Finding an operand, a jump's target and a branch leave RAM. -/

theorem readOperand_ram (o : Src) (s : State) : (readOperand o s).2.ram = s.ram := by
  obtain ⟨rs, es, h⟩ := readOperand_effect o s
  rw [h, State.logged_ram]

theorem jumpTarget_ram (o : JmpOperand) (s : State) : (jumpTarget o s).2.ram = s.ram := by
  obtain ⟨rs, es, h⟩ := jumpTarget_effect o s
  rw [h, State.logged_ram]

theorem branch_ram (cond : Bool) (off : Byte) (s : State) : (branch cond off s).ram = s.ram := by
  cases cond <;> rfl

/-- Settles O15: the bodies off the list leave RAM, and no body writes the cartridge. -/
theorem onlyStoresAndPushesChangeMemory : Obligations.OnlyStoresAndPushesChangeMemory := by
  unfold Obligations.OnlyStoresAndPushesChangeMemory
  intro i s t h
  obtain ⟨u, hexec, hevolves⟩ := exec_evolves i s
  obtain rfl : u = t := Host.Outcome.next.inj (hexec.symm.trans h)
  refine ⟨fun hkind b => peek_congr ?_ hevolves.prg hevolves.prgPages b, hevolves.prg, hevolves.prgPages,
    fun b hb => peek_high hevolves.prg hevolves.prgPages hb⟩
  cases i with
  -- on the list
  | sta m | stx m | sty m | inc m | dec m | asl o | lsr o | rol o | ror o | pha | php | jsr target | brk =>
    simp [Instr.kind] at hkind
  -- an operand or a target is read
  | lda o | ldx o | ldy o | adc o | sbc o | and o | ora o | eor o | cmp o | cpx o | cpy o =>
    cases h
    exact readOperand_ram o s
  | bit m =>
    cases h
    exact readOperand_ram (.mem m) s
  | jmp o =>
    cases h
    exact jumpTarget_ram o s
  | bpl off | bmi off | bvc off | bvs off | bcc off | bcs off | bne off | beq off =>
    cases h
    exact branch_ram _ off s
  -- the stack is read
  | pla | plp =>
    cases h
    simp [pop8_eq]
  | rts =>
    cases h
    simp [pop16_eq]
  | rti =>
    obtain rfl : returnFromTrap s = u := Host.Outcome.next.inj h
    simp [returnFromTrap_eq]
  -- registers, flags and the report stream only
  | tax | tay | txa | tya | tsx | txs | inx | iny | dex | dey
  | clc | sec | cli | sei | cld | sed | clv | nop | unimpl op =>
    cases h
    rfl

/-! ## The address map, by range (20_memory.md R51) -/

theorem cell_of_route_eq_ram {a : Addr} {k : Nat} (h : route a = .ram k) : a.toNat ≤ 0x1FFF ∧ a.toNat % 0x800 = k := by
  unfold route at h
  split at h
  · next ha =>
    cases h
    exact ⟨ha, rfl⟩
  · repeat' split at h
    all_goals cases h

theorem route_of_periphAt {a : Addr} {reg : PeriphReg} (h : PeriphAt a reg) : route a = .periph reg := by
  rcases h with ⟨hlo, hhi, k, hk, rfl⟩ | ⟨ha, rfl⟩ | ⟨hlo, hhi, hdma, k, hk, rfl⟩
  · rw [route, if_neg (by omega), if_pos hhi, ← hk, Fin.ofNat_val_eq_self]
  · rw [route, if_neg (by omega), if_neg (by omega), if_pos ha]
  · rw [route, if_neg (by omega), if_neg (by omega), if_neg hdma, if_pos hhi, ← hk, Fin.ofNat_val_eq_self]

theorem route_unhandled {a : Addr} (hlo : 0x4018 ≤ a.toNat) (hhi : a.toNat ≤ 0x401F) : route a = .unhandled := by
  rw [route, if_neg (by omega), if_neg (by omega), if_neg (by omega), if_neg (by omega), if_pos hhi]

theorem route_mapper {a : Addr} (h : 0x4020 ≤ a.toNat) : route a = .mapper := by
  rw [route, if_neg (by omega), if_neg (by omega), if_neg (by omega), if_neg (by omega), if_neg (by omega)]

/-! ## A bus access outside RAM, by range (20_memory.md R52, R53) -/

theorem busRead_periph {a : Addr} {reg : PeriphReg} (h : PeriphAt a reg) (s : State) :
    busRead a s = (Config.periphOracle (s.periph ++ [.read reg]) reg, s.transact (.read reg)) := by
  rw [busRead, route_of_periphAt h]
  rfl

/-- The mapper too answers no read below 0x8000 (R62). -/
theorem busRead_unhandled {a : Addr} (hlo : 0x4018 ≤ a.toNat) (hhi : a.toNat ≤ 0x7FFF) (s : State) :
    busRead a s = (unhandledReadValue, s.raise (.unhandledAddress a .read)) := by
  by_cases hmapper : 0x4020 ≤ a.toNat
  · have hindex : prgIndex s.prgPages a = none := if_pos (by omega)
    rw [busRead, route_mapper hmapper, mapperRead, hindex, unhandledRead]
  · rw [busRead, route_unhandled hlo (by omega), unhandledRead]

theorem busWrite_periph {a : Addr} {reg : PeriphReg} (h : PeriphAt a reg) (v : Byte) (s : State) :
    busWrite a v s = s.transact (.write reg v) := by
  rw [busWrite, route_of_periphAt h]

theorem busWrite_unhandled {a : Addr} (hlo : 0x4018 ≤ a.toNat) (hhi : a.toNat ≤ 0x401F) (v : Byte) (s : State) :
    busWrite a v s = s.raise (.unhandledAddress a .write) := by
  rw [busWrite, route_unhandled hlo hhi]

theorem busWrite_mapper {a : Addr} (h : 0x4020 ≤ a.toNat) (v : Byte) (s : State) :
    busWrite a v s = s.raise (.unsupportedWrite a v) := by
  rw [busWrite, route_mapper h]

/-- Settles O20: the dispatcher sends the read to the register that R51, R55 and R57 name. -/
theorem peripheralReadIsOneTransaction : Obligations.PeripheralReadIsOneTransaction := by
  unfold Obligations.PeripheralReadIsOneTransaction
  exact fun a reg s h => busRead_periph h s

/-- Settles O22: from 0x4020 to 0x7FFF it is the mapper that has no byte to show. -/
theorem unhandledAccessesAreReported : Obligations.UnhandledAccessesAreReported := by
  unfold Obligations.UnhandledAccessesAreReported
  exact ⟨fun a s hlo hhi => busRead_unhandled hlo hhi s, fun a v s hlo hhi => busWrite_unhandled hlo hhi v s⟩

/-- Settles O19: no body writes the cartridge, nor does a fetch. -/
theorem mapperWritesAreReportedAndDropped : Obligations.MapperWritesAreReportedAndDropped := by
  unfold Obligations.MapperWritesAreReportedAndDropped
  refine ⟨fun a v s h => busWrite_mapper h v s, fun s t h => ?_⟩
  obtain ⟨u, n, hevolves, rfl⟩ := evolves_of_step h
  exact hevolves.prg

/-- Settles O21: an address of window G and its mirror in the first eight bytes have the same register behind them. -/
theorem windowGIsMirroredEveryEightBytes : Obligations.WindowGIsMirroredEveryEightBytes := by
  unfold Obligations.WindowGIsMirroredEveryEightBytes
  intro a v s hlo hhi
  obtain ⟨k, hk⟩ : ∃ k : Fin 8, k.val = a.toNat % 8 := ⟨⟨_, Nat.mod_lt _ (by decide)⟩, rfl⟩
  have here : PeriphAt a (.g k) := .inl ⟨hlo, hhi, k, hk, rfl⟩
  have mirror : PeriphAt (0x2000 + BitVec.ofNat 16 k.val) (.g k) := by
    have hlt := k.isLt
    exact .inl ⟨by bv_omega, by bv_omega, k, by bv_omega, rfl⟩
  refine ⟨k, hk, ?_, ?_, ?_, ?_⟩
  · rw [busRead_periph here, busRead_periph mirror]
  · rw [busWrite_periph here, busWrite_periph mirror]
  · rw [busRead_periph here, State.transact_periph]
  · rw [busWrite_periph here, State.transact_periph]

/-! ## A bus write in full (20_memory.md R53) -/

/-- A write to RAM shows at every address of its cell. -/
theorem holds_busWrite_ram {s : State} (h : s.ram.wf = true) {a : Addr} (ha : a.toNat ≤ 0x1FFF) (v : Byte) :
    Holds (busWrite a v s) a v := by
  rintro b ⟨-, hb, hcell⟩
  rw [busWrite_ram ha, peek_setRam_same h hb hcell.symm]

theorem busWrite_memoryKeptBut (a : Addr) (v : Byte) (s : State) : MemoryKeptBut a s (busWrite a v s) := by
  intro b hb
  unfold busWrite
  cases hr : route a with
  | ram k =>
    obtain ⟨ha, hcell⟩ := cell_of_route_eq_ram hr
    exact peek_setRam_other (fun hram hk => hb ⟨ha, hram, hcell.trans hk.symm⟩) v
  | periph reg | unhandled | mapper => rfl

theorem busWrite_ram_streamsKept {a : Addr} (ha : a.toNat ≤ 0x1FFF) (v : Byte) (s : State) :
    StreamsKept s (busWrite a v s) := by
  rw [busWrite_ram ha]
  exact ⟨rfl, rfl⟩

theorem stored_busWrite {s : State} (h : s.ram.wf = true) (a : Addr) (v : Byte) : Stored a v s (busWrite a v s) := by
  refine ⟨fun ha => ⟨holds_busWrite_ram h ha v, busWrite_ram_streamsKept ha v s⟩, busWrite_memoryKeptBut a v s,
    fun reg hreg => ?_, fun hlo hhi => ?_, fun hlo => ?_⟩
  · rw [busWrite_periph hreg]
    exact ⟨rfl, rfl⟩
  · rw [busWrite_unhandled hlo hhi]
    exact ⟨rfl, rfl⟩
  · rw [busWrite_mapper hlo]
    exact ⟨rfl, rfl⟩

theorem busWrite_restKept (a : Addr) (v : Byte) (s : State) : RestKept s (busWrite a v s) := by
  have h := busWrite_evolves a v s
  exact ⟨h.prg, h.prgPages, h.cyc, h.poweredOn⟩

/-- Settles O18: one lemma for each range; a write changes memory in RAM only. -/
theorem busWriteByRange : Obligations.BusWriteByRange := by
  unfold Obligations.BusWriteByRange
  intro a v s hs
  obtain ⟨ha, hx, hy, hsp, hpc, hp⟩ := busWrite_registers s a v
  exact ⟨stored_busWrite (wf_of_inv hs) a v, ⟨ha, hx, hy, hsp, hpc⟩, hp, busWrite_restKept a v s⟩

/-! ## RAM -/

theorem read_ram_launched {p : PrgPages} {prg : List Byte} {ramInit : Vector Byte 0x800} {k : Nat} (hk : k < 0x800) :
    (launched p prg ramInit).ram.read k = ramInit[k] := by
  have h := Memory.read_ofBytes 0 ramInit.toList k (by rwa [Vector.length_toList])
  rwa [Nat.zero_add, Vector.getElem_toList] at h

/-- Settles O17: both addresses reach the same RAM cell. -/
theorem ramIsMirroredFourTimes : Obligations.RamIsMirroredFourTimes := by
  unfold Obligations.RamIsMirroredFourTimes
  refine ⟨fun s a b v hs hab => ?_, fun pages prg ramInit t h a ha => ?_⟩
  · have ⟨ha, hb, hcell⟩ := hab
    refine ⟨?_, ?_, ?_, busWrite_memoryKeptBut a v s, busWrite_ram_streamsKept ha v s⟩
    · rw [busRead_ram ha, busRead_ram hb, hcell]
    · rw [busRead_ram ha]
    · exact busRead_of_peek (holds_busWrite_ram (wf_of_inv hs) ha v b hab)
  · obtain ⟨p, -, rfl, -, -⟩ := launch_cases h
    rw [busRead_ram ha, powerOn_ram, read_ram_launched]

/-! ## The cartridge -/

/-- Where the mapper shows a byte of `PRG`, memory stands (20_memory.md R61). -/
theorem peek_of_prgIndex {s : State} {a : Addr} {k : Nat} (h : prgIndex s.prgPages a = some k) :
    s.peek a = some (s.prg.read k) := by
  have hmapper : route a = .mapper := by
    refine route_mapper (Nat.le_of_not_lt fun hlt => ?_)
    unfold prgIndex at h
    rw [if_pos (by omega)] at h
    cases h
  rw [State.peek, hmapper, h, Option.map_some]

theorem page_le_size (p : PrgPages) : 0x4000 ≤ p.size := by
  cases p <;> decide

theorem prgIndex_lowPage (p : PrgPages) {k : Nat} (hk : k < 0x4000) : prgIndex p (0x8000 + BitVec.ofNat 16 k) = some k := by
  have ha : (0x8000 + BitVec.ofNat 16 k : Addr).toNat = 0x8000 + k := by bv_omega
  unfold prgIndex
  rw [ha, if_neg (by omega), if_pos (by omega), Nat.add_mod_left, Nat.mod_eq_of_lt (by omega)]

/-- The high page is the cartridge's last (20_memory.md R61). -/
theorem prgIndex_highPage (p : PrgPages) {k : Nat} (hk : k < 0x4000) :
    prgIndex p (0xC000 + BitVec.ofNat 16 k) = some (p.size - 0x4000 + k) := by
  have ha : (0xC000 + BitVec.ofNat 16 k : Addr).toNat = 0xC000 + k := by bv_omega
  unfold prgIndex
  rw [ha, if_neg (by omega), if_neg (by omega)]
  cases p <;> exact congrArg some (by rw [PrgPages.size]; omega)

/-- A read where the mapper shows byte `k` of a launched machine's cartridge. -/
theorem busRead_launched {p : PrgPages} {prg : List Byte} {ramInit : Vector Byte 0x800} {a : Addr} {k : Nat}
    (h : prgIndex p a = some k) (hk : k < prg.length) :
    busRead a (launched p prg ramInit) = (prg.getD k 0, launched p prg ramInit) := by
  have hread := Memory.read_ofBytes 0 prg k hk
  rw [Nat.zero_add, List.getElem_eq_getD 0] at hread
  exact busRead_of_peek ((peek_of_prgIndex h).trans (congrArg some hread))

/-- Settles O23: the low page is byte 0 on, the high page the last 0x4000 bytes. -/
theorem mapperShowsTheProgramPages : Obligations.MapperShowsTheProgramPages := by
  unfold Obligations.MapperShowsTheProgramPages
  intro pages prg ramInit t h k hk
  obtain ⟨p, hlen, rfl, hone, htwo⟩ := launch_cases h
  have low : k < prg.length := hlen ▸ hk.trans_le (page_le_size p)
  have high : p.size - 0x4000 + k < prg.length := by
    have := page_le_size p
    omega
  refine ⟨busRead_launched (prgIndex_lowPage p hk) low, fun hpages => ?_, fun hpages => ?_⟩
  · obtain rfl := hone hpages
    simpa [PrgPages.size] using busRead_launched (prgIndex_highPage .one hk) high
  · obtain rfl := htwo hpages
    exact busRead_launched (prgIndex_highPage .two hk) high

/-! ## The 16-bit read -/

theorem memRead16_of_peek {a : Addr} {s : State} {lo hi : Byte} (hlo : s.peek a = some lo) (hhi : s.peek (a + 1) = some hi) :
    memRead16 a s = (word hi lo, s) := by
  simp only [memRead16, busRead_of_peek hlo, busRead_of_peek hhi]

/-- Settles O24: the second read is made on the state the first one left. -/
theorem sixteenBitReadIsLittleEndian : Obligations.SixteenBitReadIsLittleEndian := by
  unfold Obligations.SixteenBitReadIsLittleEndian
  exact fun a s => ⟨word_toNat _ _, rfl, fun lo hi hlo hhi => memRead16_of_peek hlo hhi⟩

end Sys2Proof.Proofs

namespace Sys2Proof.Proofs

open Sys2Proof.Machine Sys2Proof.Claims Sys2Proof.Laws

/-! ## Decoding what is encoded (30_encoding.md R92, R93, R96) -/

theorem roundTrip (i : Instr) : RoundTrip.Statement i := by
  cases i with
  | lda o => exact RoundTrip.lda o
  | ldx o => exact RoundTrip.ldx o
  | ldy o => exact RoundTrip.ldy o
  | sta m => exact RoundTrip.sta m
  | stx m => exact RoundTrip.stx m
  | sty m => exact RoundTrip.sty m
  | tax => exact RoundTrip.tax
  | tay => exact RoundTrip.tay
  | txa => exact RoundTrip.txa
  | tya => exact RoundTrip.tya
  | tsx => exact RoundTrip.tsx
  | txs => exact RoundTrip.txs
  | adc o => exact RoundTrip.adc o
  | sbc o => exact RoundTrip.sbc o
  | and o => exact RoundTrip.and o
  | ora o => exact RoundTrip.ora o
  | eor o => exact RoundTrip.eor o
  | bit m => exact RoundTrip.bit m
  | cmp o => exact RoundTrip.cmp o
  | cpx o => exact RoundTrip.cpx o
  | cpy o => exact RoundTrip.cpy o
  | inc m => exact RoundTrip.inc m
  | dec m => exact RoundTrip.dec m
  | inx => exact RoundTrip.inx
  | iny => exact RoundTrip.iny
  | dex => exact RoundTrip.dex
  | dey => exact RoundTrip.dey
  | asl o => exact RoundTrip.asl o
  | lsr o => exact RoundTrip.lsr o
  | rol o => exact RoundTrip.rol o
  | ror o => exact RoundTrip.ror o
  | jmp o => exact RoundTrip.jmp o
  | jsr target => exact RoundTrip.jsr target
  | rts => exact RoundTrip.rts
  | bpl off => exact RoundTrip.bpl off
  | bmi off => exact RoundTrip.bmi off
  | bvc off => exact RoundTrip.bvc off
  | bvs off => exact RoundTrip.bvs off
  | bcc off => exact RoundTrip.bcc off
  | bcs off => exact RoundTrip.bcs off
  | bne off => exact RoundTrip.bne off
  | beq off => exact RoundTrip.beq off
  | pha => exact RoundTrip.pha
  | pla => exact RoundTrip.pla
  | php => exact RoundTrip.php
  | plp => exact RoundTrip.plp
  | clc => exact RoundTrip.clc
  | sec => exact RoundTrip.sec
  | cli => exact RoundTrip.cli
  | sei => exact RoundTrip.sei
  | cld => exact RoundTrip.cld
  | sed => exact RoundTrip.sed
  | clv => exact RoundTrip.clv
  | nop => exact RoundTrip.nop
  | brk => exact RoundTrip.brk
  | rti => exact RoundTrip.rti
  | unimpl op => exact RoundTrip.unimpl op

/-- Settles O2: the round trip of each instruction, whose rule's table and the map agree on every mode it has. -/
theorem decodeUndoesEncode : Obligations.DecodeUndoesEncode := by
  unfold Obligations.DecodeUndoesEncode
  exact roundTrip

/-! ## Encoding what is decoded (30_encoding.md R92, R95, R96)

Operand assembly loses nothing: the form it yields has the mode it was asked for, and as operand bytes as many of the two it was
given as the mode counts. -/

theorem eaOperand_eq_some {mode : Mode} {b1 b2 : Byte} {m : EaMode} (h : eaOperand mode b1 b2 = some m) :
    m.mode = mode ∧ m.bytes = [b1, b2].take mode.operandCount := by
  cases mode <;> cases h <;> simp [EaMode.mode, EaMode.bytes, Mode.operandCount]

theorem srcOperand_eq_some {mode : Mode} {b1 b2 : Byte} {o : Src} (h : srcOperand mode b1 b2 = some o) :
    o.mode = mode ∧ o.bytes = [b1, b2].take mode.operandCount := by
  unfold srcOperand at h
  split at h
  · next himm =>
    subst himm
    cases h
    exact ⟨rfl, rfl⟩
  · obtain ⟨m, hm, rfl⟩ := Option.map_eq_some_iff.mp h
    exact eaOperand_eq_some hm

theorem shiftOperand_eq_some {mode : Mode} {b1 b2 : Byte} {o : ShiftOperand} (h : shiftOperand mode b1 b2 = some o) :
    o.mode = mode ∧ o.bytes = [b1, b2].take mode.operandCount := by
  unfold shiftOperand at h
  split at h
  · next hacc =>
    subst hacc
    cases h
    exact ⟨rfl, rfl⟩
  · obtain ⟨m, hm, rfl⟩ := Option.map_eq_some_iff.mp h
    exact eaOperand_eq_some hm

theorem jmpOperand_eq_some {mode : Mode} {b1 b2 : Byte} {o : JmpOperand} (h : jmpOperand mode b1 b2 = some o) :
    o.mode = mode ∧ o.bytes = [b1, b2].take mode.operandCount := by
  unfold jmpOperand at h
  split at h <;> cases h <;> simp [JmpOperand.mode, JmpOperand.bytes, Mode.operandCount]

/-- A table of one row knows one mode. -/
theorem mode_of_lookup_singleton {mode only : Mode} {op value : Byte} (h : [(only, value)].lookup mode = some op) :
    mode = only := by
  by_contra hne
  simp [List.lookup, beq_false_of_ne hne] at h

/-- What a pair of tags assembles to, where the kind's table has the mode: that kind, that mode, and the bytes it was made of. -/
theorem assemble_eq_some {k : Mnemonic} {mode : Mode} {op b1 b2 : Byte} {i : Instr}
    (hl : (encodings k).lookup mode = some op) (h : assemble k mode b1 b2 = some i) :
    i.kind = some k ∧ i.mode = mode ∧ i.operandBytes = [b1, b2].take mode.operandCount := by
  cases k with
  | lda | ldx | ldy | adc | sbc | and | ora | eor | cmp | cpx | cpy =>
    obtain ⟨o, ho, rfl⟩ := Option.map_eq_some_iff.mp h
    exact ⟨rfl, srcOperand_eq_some ho⟩
  | sta | stx | sty | bit | inc | dec =>
    obtain ⟨m, hm, rfl⟩ := Option.map_eq_some_iff.mp h
    exact ⟨rfl, eaOperand_eq_some hm⟩
  | asl | lsr | rol | ror =>
    obtain ⟨o, ho, rfl⟩ := Option.map_eq_some_iff.mp h
    exact ⟨rfl, shiftOperand_eq_some ho⟩
  | jmp =>
    obtain ⟨o, ho, rfl⟩ := Option.map_eq_some_iff.mp h
    exact ⟨rfl, jmpOperand_eq_some ho⟩
  | jsr =>
    obtain rfl := mode_of_lookup_singleton hl
    cases h
    simp [Instr.kind, Instr.mode, Instr.operandBytes, Mode.operandCount]
  | bpl | bmi | bvc | bvs | bcc | bcs | bne | beq | tax | tay | txa | tya | tsx | txs | inx | iny | dex | dey | rts
  | pha | pla | php | plp | clc | sec | cli | sei | cld | sed | clv | nop | brk | rti =>
    obtain rfl := mode_of_lookup_singleton hl
    cases h
    exact ⟨rfl, rfl, rfl⟩

/-- Whether a pair of tags is an instruction does not depend on the operand bytes. -/
theorem isSome_assemble (k : Mnemonic) (mode : Mode) (b1 b2 : Byte) :
    (assemble k mode b1 b2).isSome = (assemble k mode 0 0).isSome := by
  cases k with
  -- the mode decides
  | lda | ldx | ldy | adc | sbc | and | ora | eor | cmp | cpx | cpy | sta | stx | sty | bit | inc | dec | asl | lsr | rol | ror
  | jmp => cases mode <;> rfl
  -- assembled whatever the mode
  | _ => rfl

/-- The map against the tables of the rules, value by value: the table of the kind the map names has the value at that mode, and
the pair is an instruction. -/
theorem dispatch_agrees_with_encodings :
    ∀ op : Byte, ∀ km ∈ dispatch op, (encodings km.1).lookup km.2 = some op ∧ (assemble km.1 km.2 0 0).isSome := by
  decide

/-- A form is well-formed iff its rule's table gives it an opcode. -/
theorem wf_eq_isSome_opcode (i : Instr) : i.wf = i.opcode.isSome := by
  cases i with
  | lda o | ldx o | ldy o | adc o | sbc o | and o | ora o | eor o | cmp o | cpx o | cpy o
  | asl o | lsr o | rol o | ror o =>
    simp only [Instr.wf, Instr.opcode, Instr.kind, Instr.mode, Option.bind_some]
    cases o.mode <;> rfl
  | sta m | stx m | sty m | bit m | inc m | dec m =>
    simp only [Instr.wf, Instr.opcode, Instr.kind, Instr.mode, Option.bind_some]
    cases m.mode <;> rfl
  | jmp o => cases o <;> rfl
  | unimpl op =>
    simp only [Instr.wf, Instr.opcode]
    cases unimplementedOpcodes.contains op <;> rfl
  | _ => rfl

theorem wf_of_encode {i : Instr} {bs : List Byte} (h : encode i = some bs) : i.wf = true := by
  obtain ⟨op, hop, -⟩ := Option.map_eq_some_iff.mp h
  rw [wf_eq_isSome_opcode, hop, Option.isSome_some]

theorem opcode_of_kind {i : Instr} {k : Mnemonic} (h : i.kind = some k) : i.opcode = (encodings k).lookup i.mode := by
  cases i with
  | unimpl op => cases h
  | _ => cases h; rfl

theorem operandCount_of_dispatch {op : Byte} {k : Mnemonic} {mode : Mode} (h : dispatch op = some (k, mode)) :
    operandCount op = mode.operandCount := by
  rw [operandCount, h]

theorem operandCount_le_two (op : Byte) : operandCount op ≤ 2 := by
  unfold operandCount
  split
  · exact Nat.zero_le 2
  · next mode _ => cases mode <;> decide

/-- The two bytes that assembly takes from a list of at most two are that list, padded. -/
theorem take_length_getD {operands : List Byte} (h : operands.length ≤ 2) :
    [operands.getD 0 0, operands.getD 1 0].take operands.length = operands := by
  match operands, h with
  | [], _ | [_], _ | [_, _], _ => rfl

/-- What an opcode byte and its operand bytes are decoded to is encoded as those bytes. -/
theorem encode_decodeInstr {op : Byte} {operands : List Byte} (h : operands.length = operandCount op) :
    encode (decodeInstr op operands) = some (op :: operands) := by
  cases hd : dispatch op with
  | none =>
    have hnil : operands = [] := List.eq_nil_of_length_eq_zero (by rw [h, operandCount, hd])
    rw [decodeInstr, hd, hnil, encode, Instr.opcode, if_pos ((dispatch_eq_none_iff op).mp hd)]
    rfl
  | some km =>
    obtain ⟨k, mode⟩ := km
    obtain ⟨hlookup, hsome⟩ := dispatch_agrees_with_encodings op (k, mode) hd
    rw [← isSome_assemble k mode (operands.getD 0 0) (operands.getD 1 0)] at hsome
    obtain ⟨i, hi⟩ := Option.isSome_iff_exists.mp hsome
    obtain ⟨hkind, hmode, hbytes⟩ := assemble_eq_some hlookup hi
    have hinstr : decodeInstr op operands = i := by
      simp only [decodeInstr, hd, hi, Option.getD_some]
    rw [← operandCount_of_dispatch hd, ← h, take_length_getD (h ▸ operandCount_le_two op)] at hbytes
    rw [hinstr, encode, opcode_of_kind hkind, hmode, hlookup, hbytes, Option.map_some]

theorem decode_of_operandCount_le {op : Byte} {tail : List Byte} (h : operandCount op ≤ tail.length) :
    decode (op :: tail) = .ok (decodeInstr op (tail.take (operandCount op)), tail.drop (operandCount op)) :=
  if_neg (Nat.not_lt.mpr h)

/-- Decoding in full (R92, R100): the opcode byte, as many operand bytes as it needs, the rest left over. -/
theorem decode_eq_ok_iff {bytes : List Byte} {i : Instr} {rest : List Byte} :
    decode bytes = .ok (i, rest) ↔
      ∃ op operands, operands.length = operandCount op ∧ bytes = op :: operands ++ rest ∧ i = decodeInstr op operands := by
  constructor
  · intro h
    cases bytes with
    | nil => cases h
    | cons op tail =>
      rw [decode] at h
      split at h
      · cases h
      · next hlen =>
        cases h
        exact ⟨op, tail.take (operandCount op), List.length_take_of_le (Nat.le_of_not_lt hlen),
          by rw [List.cons_append, List.take_append_drop], rfl⟩
  · rintro ⟨op, operands, hn, rfl, rfl⟩
    have hle : operandCount op ≤ (operands ++ rest).length := by rw [List.length_append]; omega
    rw [List.cons_append, decode_of_operandCount_le hle, ← hn, List.take_left, List.drop_left]

theorem decode_eq_ok_nil_iff {op : Byte} {operands : List Byte} {i : Instr} :
    decode (op :: operands) = .ok (i, []) ↔ operands.length = operandCount op ∧ i = decodeInstr op operands := by
  rw [decode_eq_ok_iff]
  constructor
  · rintro ⟨op', operands', hn, hbytes, hi⟩
    rw [List.append_nil] at hbytes
    cases hbytes
    exact ⟨hn, hi⟩
  · rintro ⟨hn, hi⟩
    exact ⟨op, operands, hn, (List.append_nil _).symm, hi⟩

/-- Settles O3: the bytes consumed are the opcode byte and its operand bytes, and those are the encoding of what they decode to. -/
theorem encodeUndoesDecode : Obligations.EncodeUndoesDecode := by
  unfold Obligations.EncodeUndoesDecode
  intro bytes i rest h
  obtain ⟨op, operands, hn, hbytes, rfl⟩ := decode_eq_ok_iff.mp h
  exact ⟨wf_of_encode (encode_decodeInstr hn), _, encode_decodeInstr hn, hbytes⟩

/-! ## How many bytes an instruction takes (30_encoding.md R93, R99, R100) -/

/-- Settles O4: two bytes after the opcode are as many as any mode needs. -/
theorem threeBytesAlwaysDecode : Obligations.ThreeBytesAlwaysDecode := by
  unfold Obligations.ThreeBytesAlwaysDecode
  refine ⟨operandCount, fun op b1 b2 rest => ?_⟩
  have hle := operandCount_le_two op
  exact ⟨hle, _, decode_of_operandCount_le (hle.trans (by simp))⟩

/-! ## Fetching an instruction (30_encoding.md R90, R91, R93) -/

/-- The bytes at `PC` that decode to one instruction are those a step fetches for it. -/
theorem fetchInstr_of_decode {s u : State} {op : Byte} {operands : List Byte} {i : Instr}
    (hfetch : fetchBytes (op :: operands).length s = (op :: operands, u)) (hdecode : decode (op :: operands) = .ok (i, [])) :
    fetchInstr s = { op := op, instr := i, state := u } := by
  obtain ⟨hn, rfl⟩ := decode_eq_ok_nil_iff.mp hdecode
  simp only [List.length_cons, fetchBytes, Prod.mk.injEq, List.cons.injEq] at hfetch
  obtain ⟨⟨hop, hoperands⟩, hstate⟩ := hfetch
  simp only [fetchInstr, hop, ← hn, hoperands, hstate]

theorem stepIs_of_decode {s u : State} (h : s.poweredOn = true) {op : Byte} {operands : List Byte} {i : Instr}
    (hfetch : fetchBytes (op :: operands).length s = (op :: operands, u)) (hdecode : decode (op :: operands) = .ok (i, [])) :
    StepIs s op i u := by
  obtain ⟨t, hexec, -, hstep⟩ := step_of_poweredOn h
  rw [fetchInstr_of_decode hfetch hdecode] at hexec hstep
  exact ⟨t, hexec, hstep⟩

/-- Successive fetches read successive addresses, each on the state the read before it left (R91). -/
theorem fetchBytes_succ_setPc (n : Nat) (a : Addr) (s : State) :
    fetchBytes (n + 1) (s.setPc a) =
      ((busRead a s).1 :: (fetchBytes n ((busRead a s).2.setPc (a + 1))).1, (fetchBytes n ((busRead a s).2.setPc (a + 1))).2) := by
  rw [fetchBytes, fetch8_setPc]

/-- The opcode byte says which one to three bytes of any three are one instruction. -/
theorem decode_one_two_or_three (op b1 b2 : Byte) :
    (∃ i, decode [op] = .ok (i, [])) ∨ (∃ i, decode [op, b1] = .ok (i, [])) ∨ ∃ i, decode [op, b1, b2] = .ok (i, []) := by
  simp only [decode_eq_ok_nil_iff, exists_and_left, exists_eq, and_true, List.length_cons, List.length_nil]
  have hle := operandCount_le_two op
  omega

/-- Settles O6: the three cases are fetches of one, two and three bytes, and one of these is what the opcode needs. -/
theorem stepFetchesThroughTheBus : Obligations.StepFetchesThroughTheBus := by
  unfold Obligations.StepFetchesThroughTheBus
  intro s h r0 r1 r2
  have next_two : s.pc + 1 + 1 = s.pc + 2 := by bv_omega
  have next_three : s.pc + 2 + 1 = s.pc + 3 := by bv_omega
  have one : fetchBytes 1 s = ([r0.1], r0.2.setPc (s.pc + 1)) := fetchBytes_succ_setPc 0 s.pc s
  have two : fetchBytes 2 s = ([r0.1, r1.1], r1.2.setPc (s.pc + 2)) := by
    change fetchBytes 2 (s.setPc s.pc) = _
    rw [fetchBytes_succ_setPc, fetchBytes_succ_setPc, next_two]
    rfl
  have three : fetchBytes 3 s = ([r0.1, r1.1, r2.1], r2.2.setPc (s.pc + 3)) := by
    change fetchBytes 3 (s.setPc s.pc) = _
    rw [fetchBytes_succ_setPc, fetchBytes_succ_setPc, fetchBytes_succ_setPc, next_two, next_three]
    rfl
  exact ⟨decode_one_two_or_three _ _ _, fun i => stepIs_of_decode h one, fun i => stepIs_of_decode h two,
    fun i => stepIs_of_decode h three⟩

/-- Settles O1: the length of each example is that of its opcode, and its bytes assemble to the instruction (R103). -/
theorem exampleBytesDecode : Obligations.ExampleBytesDecode := by
  unfold Obligations.ExampleBytesDecode
  exact ⟨rfl, rfl, rfl, rfl, rfl, rfl, rfl, rfl, rfl, rfl, rfl, rfl, rfl, rfl⟩

/-- Fetches from memory have no side effect and give the bytes that stand there. -/
theorem fetchBytes_of_peek (bs : List Byte) {s : State}
    (h : ∀ (k : Nat) (hk : k < bs.length), s.peek (s.pc + BitVec.ofNat 16 k) = some bs[k]) :
    fetchBytes bs.length s = (bs, s.setPc (s.pc + BitVec.ofNat 16 bs.length)) := by
  induction bs generalizing s with
  | nil => simp [fetchBytes, State.setPc]
  | cons b bs ih =>
    have shift (k : Nat) : s.pc + 1 + BitVec.ofNat 16 k = s.pc + BitVec.ofNat 16 (k + 1) := by
      rw [BitVec.add_assoc, Nat.add_comm k 1, BitVec.ofNat_add]
      rfl
    have hhead : s.peek s.pc = some b := by simpa using h 0 (Nat.succ_pos _)
    have htail := ih (s := s.setPc (s.pc + 1)) fun k hk => by
      rw [State.setPc_pc, State.peek_setPc, shift]
      exact h (k + 1) (Nat.succ_lt_succ hk)
    rw [State.setPc_pc, shift] at htail
    rw [List.length_cons, fetchBytes, fetch8_of_peek hhead, htail]
    rfl

theorem decode_of_encode {i : Instr} {bs : List Byte} (h : encode i = some bs) : decode bs = .ok (i, []) := by
  obtain ⟨bs', hencode, hdecode⟩ := roundTrip i (wf_of_encode h)
  obtain rfl : bs' = bs := Option.some.inj (hencode.symm.trans h)
  simpa using hdecode []

/-- Settles O5: the bytes in memory are those fetched, and an encoding decodes to its instruction. -/
theorem stepRunsTheDecodedInstruction : Obligations.StepRunsTheDecodedInstruction := by
  unfold Obligations.StepRunsTheDecodedInstruction
  intro s i op operands h hencode hpeek
  exact stepIs_of_decode h (fetchBytes_of_peek _ hpeek) (decode_of_encode hencode)

end Sys2Proof.Proofs

namespace Sys2Proof.Proofs

open Sys2Proof.Machine Sys2Proof.Claims

/-! ## Effective addresses (40_addressing_modes.md R110 to R123) -/

/-- An index added to a zero-page byte wraps within page 0 (R115, R116, R121). -/
theorem zext16_add_toNat (b i : Byte) : (zext16 (b + i)).toNat = (b.toNat + i.toNat) % 0x100 := by
  rw [zext16_toNat, BitVec.toNat_add]

/-- An index added to a word carries into its high byte (R118, R119, R123). -/
theorem add_zext16_toNat (w : Addr) (i : Byte) : (w + zext16 i).toNat = (w.toNat + i.toNat) % 0x10000 := by
  rw [BitVec.toNat_add, zext16_toNat]

/-- Settles O28: the index is added as a byte, before the extension to an address. -/
theorem zeroPageAddresses : Obligations.ZeroPageAddresses := by
  unfold Obligations.ZeroPageAddresses
  exact fun b s => ⟨zext16_toNat b, zext16_add_toNat b s.x, zext16_add_toNat b s.y,
    resolve_state _ s, resolve_state _ s, resolve_state _ s⟩

/-- Settles O29: the index is added to the whole word. -/
theorem absoluteAddresses : Obligations.AbsoluteAddresses := by
  unfold Obligations.AbsoluteAddresses
  exact fun w s => ⟨rfl, add_zext16_toNat w s.x, add_zext16_toNat w s.y,
    resolve_state _ s, resolve_state _ s, resolve_state _ s⟩

theorem peek_ofNat_ram {k : Nat} (h : k < 0x800) (s : State) : s.peek (BitVec.ofNat 16 k) = some (s.ram.read k) := by
  have hk : (BitVec.ofNat 16 k).toNat = k := by
    rw [BitVec.toNat_ofNat, Nat.mod_eq_of_lt (by omega)]
  rw [peek_ram (by omega), hk, Nat.mod_eq_of_lt h]

/-- The two bytes of a pointer in page 0, the second at 0x0100 after 0x00FF (R121, R123). -/
theorem peek_zeroPagePointer (b : Byte) (s : State) :
    s.peek (BitVec.ofNat 16 b.toNat) = some (s.ram.read b.toNat) ∧
      s.peek (BitVec.ofNat 16 (b.toNat + 1)) = some (s.ram.read (b.toNat + 1)) := by
  have h := b.isLt
  exact ⟨peek_ofNat_ram (by omega) s, peek_ofNat_ram (by omega) s⟩

theorem resolve_indx (b : Byte) (s : State) :
    resolve (.indx b) s = (word (s.ram.read ((b + s.x).toNat + 1)) (s.ram.read (b + s.x).toNat), s) :=
  memRead16_zeroPage (b + s.x) s

theorem resolve_indy (b : Byte) (s : State) :
    resolve (.indy b) s = (word (s.ram.read (b.toNat + 1)) (s.ram.read b.toNat) + zext16 s.y, s) := by
  simp only [resolve, memRead16_zeroPage]

/-- Settles O30: both pointers lie in RAM; `X` is added to the pointer's address as a byte, `Y` to the pointer as a word. -/
theorem indirectAddresses : Obligations.IndirectAddresses := by
  unfold Obligations.IndirectAddresses
  intro b s
  constructor
  · obtain ⟨hlo, hhi⟩ := peek_zeroPagePointer (b + s.x) s
    rw [← BitVec.toNat_add]
    exact ⟨_, _, hlo, hhi, resolve_indx b s⟩
  · obtain ⟨hlo, hhi⟩ := peek_zeroPagePointer b s
    refine ⟨_, _, hlo, hhi, ?_, resolve_state _ s⟩
    rw [resolve_indy, add_zext16_toNat, word_toNat]

/-! ## The operand byte (40_addressing_modes.md R113, 20_memory.md R52) -/

theorem readOperand_mem (m : EaMode) (s : State) : readOperand (.mem m) s = busRead (resolve m s).1 s := by
  simp only [readOperand, resolve_state]

/-- The dispatcher sends an address to a peripheral register only where R51, R55 and R57 put one. -/
theorem periphAt_of_route {a : Addr} {reg : PeriphReg} (h : route a = .periph reg) : PeriphAt a reg := by
  unfold route at h
  split at h
  · cases h
  split at h
  · next hlo hhi =>
    cases h
    exact .inl ⟨by omega, hhi, _, Nat.mod_mod _ _, rfl⟩
  split at h
  · next hdma =>
    cases h
    exact .inr (.inl ⟨hdma, rfl⟩)
  split at h
  · next hlo hdma hhi =>
    cases h
    exact .inr (.inr ⟨by omega, hhi, hdma, _, Nat.mod_eq_of_lt (by omega), rfl⟩)
  split at h <;> cases h

/-- A read where neither memory nor a peripheral register is has no handler to answer it (20_memory.md R56, R62). -/
theorem busRead_of_nothing {a : Addr} {s : State} (hpeek : s.peek a = none) (hperiph : ∀ reg, ¬ PeriphAt a reg) :
    busRead a s = unhandledRead a s := by
  unfold State.peek at hpeek
  unfold busRead
  cases hr : route a with
  | ram cell => simp [hr] at hpeek
  | periph reg => exact absurd (periphAt_of_route hr) (hperiph reg)
  | unhandled => rfl
  | mapper =>
    simp only [hr, Option.map_eq_none_iff] at hpeek
    simp only [mapperRead, hpeek]

/-- Settles O31: a memory operand is one bus read at the effective address, and one lemma gives what that read does in each case. -/
theorem operandByForm : Obligations.OperandByForm := by
  unfold Obligations.OperandByForm
  refine ⟨fun b s => rfl, fun m s => ?_⟩
  rw [readOperand_mem]
  exact ⟨fun v hv => busRead_of_peek hv, fun reg hreg => busRead_periph hreg s,
    fun hpeek hperiph => busRead_of_nothing hpeek hperiph⟩

end Sys2Proof.Proofs

namespace Sys2Proof.Proofs

open Sys2Proof.Machine Sys2Proof.Claims

/-! ## Load, store, transfer (41_load_store_transfer.md R130 to R141) -/

/-- The bytes of an instruction are those of its mnemonic's own table. -/
theorem encodedBy_encodings {i : Instr} {k : Mnemonic} (h : i.kind = some k) :
    EncodedBy i i.mode i.operandBytes (encodings k) := by
  rw [EncodedBy, encode, opcode_of_kind h]

/-- `SetZN` by numbers (10_state.md R29): bit 7 is the sign. -/
theorem setZN_eq_withZN (p : Status) (v : Byte) : p.setZN v = withZN p v := by
  have hz : (v == 0) = decide (v.toNat = 0) := by
    rw [beq_eq_decide, decide_eq_decide]
    exact BitVec.toNat_inj.symm
  have hn : v.getLsbD 7 = decide (128 ≤ v.toNat) := by
    rw [← BitVec.msb_eq_getLsbD_last, BitVec.msb_eq_decide]
  rw [Status.setZN, withZN, hz, hn]

/-- Reading an operand and then `SetZN` changes the two flags and the streams. -/
theorem readOperand_setZN (o : Src) (s : State) (v : Byte) :
    (readOperand o s).2.setZN v =
      { s with p := withZN s.p v, report := (readOperand o s).2.report, periph := (readOperand o s).2.periph } := by
  obtain ⟨rs, es, h⟩ := readOperand_effect o s
  rw [h, State.setZN, setZN_eq_withZN]
  rfl

theorem loadsInto_of_exec {i : Instr} {o : Src} {update : State → Byte → State}
    (hexec : ∀ s, exec i s = .next (update ((readOperand o s).2.setZN (readOperand o s).1) (readOperand o s).1))
    (hmemory : ∀ s v, MemoryKept s (update s v)) : LoadsInto i o update := by
  intro s
  have h := hexec s
  rw [readOperand_setZN] at h
  exact ⟨_, h, rfl, hmemory _ _⟩

/-- Settles O32: a load's body is the operand read, `SetZN` of the byte and one register update. -/
theorem loadsSetTheRegisterAndZN : Obligations.LoadsSetTheRegisterAndZN := by
  unfold Obligations.LoadsSetTheRegisterAndZN
  exact fun o => ⟨encodedBy_encodings (i := .lda o) rfl, encodedBy_encodings (i := .ldx o) rfl,
    encodedBy_encodings (i := .ldy o) rfl, loadsInto_of_exec (fun s => rfl) (fun s v b => rfl),
    loadsInto_of_exec (fun s => rfl) (fun s v b => rfl), loadsInto_of_exec (fun s => rfl) (fun s v b => rfl)⟩

/-- Finding the address leaves the state, so the byte stored is the register's own. -/
theorem storesByte_of_exec {i : Instr} {m : EaMode} {value : State → Byte}
    (hexec : ∀ s, exec i s = .next (busWrite (resolve m s).1 (value (resolve m s).2) (resolve m s).2)) :
    StoresByte i m value := by
  intro s hs
  have h := hexec s
  rw [resolve_state] at h
  exact ⟨_, h, busWriteByRange _ _ s hs⟩

/-- Settles O33: a store's body is one bus write at the address `resolve` gives, and O18 says what that write does. -/
theorem storesWriteTheRegister : Obligations.StoresWriteTheRegister := by
  unfold Obligations.StoresWriteTheRegister
  exact fun m => ⟨encodedBy_encodings (i := .sta m) rfl, encodedBy_encodings (i := .stx m) rfl,
    encodedBy_encodings (i := .sty m) rfl, storesByte_of_exec fun s => rfl, storesByte_of_exec fun s => rfl,
    storesByte_of_exec fun s => rfl⟩

theorem transfers_of_exec {i : Instr} {op : Byte} {value : State → Byte} {update : State → Byte → State}
    (hencode : encode i = some [op]) (hexec : ∀ s, exec i s = .next (update (s.setZN (value s)) (value s)))
    (hmemory : ∀ s v, MemoryKept s (update s v)) : Transfers i op value update := by
  refine ⟨hencode, fun s => ?_⟩
  have h := hexec s
  rw [State.setZN, setZN_eq_withZN] at h
  exact ⟨_, h, rfl, hmemory _ _⟩

/-- R141: the stack pointer is written by `TXS`, the pushes and the pops only. -/
theorem kind_of_sp_ne {i : Instr} {s t : State} (h : exec i s = .next t) (hsp : t.sp ≠ s.sp) :
    i.kind ∈ [some Mnemonic.txs, some .pha, some .pla, some .php, some .plp, some .jsr, some .rts, some .brk, some .rti] := by
  obtain ⟨-, -, -, hkept, -⟩ := onlyTheListedInstructionsWriteARegister i s t h
  by_contra hkind
  exact hsp (hkept fun hlisted => hkind ((List.perm_append_singleton _ _).mem_iff.mp hlisted))

/-- Settles O34: a transfer's body is `SetZN` and one register update; O14 lists the writers of `SP`. -/
theorem transfersCopyTheRegister : Obligations.TransfersCopyTheRegister := by
  unfold Obligations.TransfersCopyTheRegister
  exact ⟨transfers_of_exec rfl (fun s => rfl) (fun s v b => rfl), transfers_of_exec rfl (fun s => rfl) (fun s v b => rfl),
    transfers_of_exec rfl (fun s => rfl) (fun s v b => rfl), transfers_of_exec rfl (fun s => rfl) (fun s v b => rfl),
    transfers_of_exec rfl (fun s => rfl) (fun s v b => rfl), ⟨rfl, fun s => ⟨_, rfl, rfl, fun b => rfl⟩⟩,
    fun i s t h hsp => kind_of_sp_ne h hsp⟩

end Sys2Proof.Proofs

namespace Sys2Proof.Proofs

open Sys2Proof.Machine Sys2Proof.Claims

/-! ## The adder (42_arithmetic_logic.md R150, R151) -/

section
variable (a b : Byte) (cin : Bool)

theorem addC_r : (addC a b cin).r = BitVec.ofNat 8 (a.toNat + b.toNat + cin.toNat) := rfl

theorem addC_r_toNat : (addC a b cin).r.toNat = (a.toNat + b.toNat + cin.toNat) % 0x100 :=
  BitVec.toNat_ofNat _ _

/-- The 9-bit sum has its top bit set iff it exceeds 0xFF. -/
theorem addC_c : (addC a b cin).c = decide (0xFF < a.toNat + b.toNat + cin.toNat) := by
  have ha := a.isLt
  have hb := b.isLt
  have hc := cin.toNat_le
  simp only [addC, Nat.testBit_eq_decide_div_mod_eq, decide_eq_decide]
  omega

/-- The mask 0x80 keeps the sign. -/
theorem and_0x80_bne_zero (x : Byte) : (x &&& 0x80 != 0) = x.msb := by
  have hmask : (0x80 : Byte) = BitVec.twoPow 8 7 := rfl
  rw [hmask, BitVec.and_twoPow, BitVec.msb_eq_getLsbD_last]
  cases x.getLsbD 7 <;> rfl

/-- The overflow as the sign rule of R150. -/
theorem addC_v_iff_msb : (addC a b cin).v = true ↔ a.msb = b.msb ∧ (addC a b cin).r.msb ≠ a.msb := by
  have hv : (addC a b cin).v = (!(a.msb ^^ b.msb) && (a.msb ^^ (addC a b cin).r.msb)) := by
    simp only [addC, and_0x80_bne_zero, BitVec.msb_and, BitVec.msb_not, BitVec.msb_xor, Nat.zero_lt_succ, decide_true,
      Bool.true_and]
  rw [hv]
  cases a.msb <;> cases b.msb <;> simp

/-- The overflow as the signed sum leaving its range (R151). -/
theorem addC_v_iff_toInt :
    (addC a b cin).v = true ↔ a.toInt + b.toInt + cin.toNat < -128 ∨ 127 < a.toInt + b.toInt + cin.toNat := by
  have ha := a.isLt
  have hb := b.isLt
  have hc := cin.toNat_le
  rw [addC_v_iff_msb]
  simp only [BitVec.msb_eq_decide, BitVec.toInt_eq_toNat_cond, addC_r_toNat, ne_eq, decide_eq_decide]
  omega

theorem addC_v :
    (addC a b cin).v = decide (a.toInt + b.toInt + cin.toNat < -128 ∨ 127 < a.toInt + b.toInt + cin.toNat) :=
  Bool.eq_iff_iff.mpr ((addC_v_iff_toInt a b cin).trans decide_eq_true_iff.symm)

end

/-- Settles O35: the sum of two bytes and a carry has nine bits; the sign rule and the range of the signed sum agree. -/
theorem adderResultCarryAndOverflow : Obligations.AdderResultCarryAndOverflow := by
  unfold Obligations.AdderResultCarryAndOverflow
  exact fun a b cin => ⟨addC_r_toNat a b cin, addC_c a b cin, addC_v_iff_msb a b cin, addC_v_iff_toInt a b cin⟩

/-! ## Sum and difference (R153, R154) -/

/-- Reading an operand and then writing the flags changes nothing but them and the streams. -/
theorem readOperand_state_setP (o : Src) (s : State) (p : Status) :
    (readOperand o s).2.setP p =
      { s with p := p, report := (readOperand o s).2.report, periph := (readOperand o s).2.periph } := by
  obtain ⟨rs, es, h⟩ := readOperand_effect o s
  rw [h]
  rfl

/-- The state after `ADC` or `SBC` has read its operand and its adder has answered `t`. -/
def withSum (o : Src) (s : State) (t : Sum) : State := ((readOperand o s).2.setP (s.p.setSum t)).setA t.r

/-- By numbers, `Z` and `N` are those of the result. -/
theorem withSum_eq (o : Src) (s : State) (t : Sum) :
    withSum o s t = { s with
      a := t.r, p := withZN { s.p with c := t.c, v := t.v } t.r
      report := (readOperand o s).2.report, periph := (readOperand o s).2.periph } := by
  rw [withSum, readOperand_state_setP, Status.setSum, setZN_eq_withZN]
  rfl

theorem exec_adc (o : Src) (s : State) :
    exec (.adc o) s = .next (withSum o s (addC s.a (readOperand o s).1 s.p.c)) := by
  simp only [exec, execAdc, readOperand_registers]
  rfl

theorem exec_sbc (o : Src) (s : State) :
    exec (.sbc o) s = .next (withSum o s (addC s.a ((readOperand o s).1 ^^^ 0xFF) s.p.c)) := by
  simp only [exec, execSbc, readOperand_registers]
  rfl

/-- Settles O36: the adder's result, carry and overflow are those of the exact sums. -/
theorem adcAddsWithCarry : Obligations.AdcAddsWithCarry := by
  unfold Obligations.AdcAddsWithCarry
  intro o s
  have h := exec_adc o s
  rw [withSum_eq, addC_r, addC_c, addC_v] at h
  exact ⟨encodedBy_encodings (i := .adc o) rfl, _, h, rfl, fun b => rfl⟩

theorem xor_0xFF (m : Byte) : m ^^^ 0xFF = ~~~m := BitVec.xor_allOnes

section
variable (a m : Byte) (c : Bool)

/-- The sum with the operand inverted is the difference with borrow, 256 higher (R154). -/
theorem toNat_add_inverted : a.toNat + (m ^^^ 0xFF).toNat + c.toNat = a.toNat + 256 - m.toNat - (1 - c.toNat) := by
  have hm := m.isLt
  have hc := c.toNat_le
  rw [xor_0xFF, BitVec.toNat_not]
  omega

/-- The signed sum with the operand inverted is the signed difference itself. -/
theorem toInt_add_inverted : a.toInt + (m ^^^ 0xFF).toInt + c.toNat = a.toInt - m.toInt - (1 - c.toNat : Nat) := by
  have hm := m.isLt
  have hc := c.toNat_le
  simp only [xor_0xFF, BitVec.toInt_eq_toNat_cond, BitVec.toNat_not]
  omega

/-- The adder carries with the operand inverted iff there is no borrow. -/
theorem addC_inverted_c : (addC a (m ^^^ 0xFF) c).c = decide (m.toNat + (1 - c.toNat) ≤ a.toNat) := by
  have hm := m.isLt
  rw [addC_c, toNat_add_inverted, decide_eq_decide]
  omega

end

/-- Settles O37: inverting the operand turns the adder's exact sums into the differences with borrow. -/
theorem sbcSubtractsWithBorrow : Obligations.SbcSubtractsWithBorrow := by
  unfold Obligations.SbcSubtractsWithBorrow
  intro o s
  have h := exec_sbc o s
  rw [withSum_eq, addC_r, addC_inverted_c, addC_v, toNat_add_inverted, toInt_add_inverted] at h
  exact ⟨encodedBy_encodings (i := .sbc o) rfl, _, h, rfl, fun b => rfl⟩

/-! ## The decimal flag (R152) -/

/-- A bus read neither reads nor writes the flags (20_memory.md R52). -/
theorem busRead_setP (a : Addr) (p : Status) (s : State) :
    busRead a (s.setP p) = ((busRead a s).1, (busRead a s).2.setP p) := by
  unfold busRead
  cases route a with
  | mapper =>
    simp only [mapperRead, State.setP_prgPages, State.setP_prg]
    cases prgIndex s.prgPages a <;> rfl
  | _ => rfl

/-- No effective address depends on the flags (40_addressing_modes.md R110). -/
theorem resolve_setP (m : EaMode) (p : Status) (s : State) : (resolve m (s.setP p)).1 = (resolve m s).1 := by
  cases m with
  | indx b => rw [resolve_indx, resolve_indx]; rfl
  | indy b => rw [resolve_indy, resolve_indy]; rfl
  | _ => rfl

theorem readOperand_setP (o : Src) (p : Status) (s : State) :
    readOperand o (s.setP p) = ((readOperand o s).1, (readOperand o s).2.setP p) := by
  cases o with
  | imm b => rfl
  | mem m => rw [readOperand_mem, readOperand_mem, resolve_setP, busRead_setP]

/-- `D` is kept by the flags of a sum, whichever way it is. -/
theorem withSum_setP_d (o : Src) (s : State) (d : Bool) (t : Sum) :
    withSum o (s.setP { s.p with d := d }) t = (withSum o s t).setP { (withSum o s t).p with d := d } := by
  rw [withSum, readOperand_setP]
  rfl

/-- Settles O38: neither the operand read nor the adder looks at `D`, and the flags written keep it. -/
theorem decimalFlagIsIgnored : Obligations.DecimalFlagIsIgnored := by
  unfold Obligations.DecimalFlagIsIgnored
  intro o s d
  change exec (.adc o) (s.setP { s.p with d := d }) = _ ∧ exec (.sbc o) (s.setP { s.p with d := d }) = _
  rw [exec_adc, exec_adc, exec_sbc, exec_sbc, withSum_setP_d, withSum_setP_d, readOperand_setP]
  exact ⟨rfl, rfl⟩

/-! ## Logic (R155 to R158) -/

theorem combinesIntoA_of_exec {i : Instr} {o : Src} {f : Byte → Byte → Byte}
    (hexec : ∀ s, exec i s = .next (((readOperand o s).2.setZN (f (readOperand o s).2.a (readOperand o s).1)).setA
      (f (readOperand o s).2.a (readOperand o s).1))) : CombinesIntoA i o f := by
  intro s
  have h := hexec s
  rw [readOperand_setZN, (readOperand_registers s o).1] at h
  exact ⟨_, h, rfl, fun b => rfl⟩

/-- Settles O39: each body is the operand read, one bitwise operation into `A` and `SetZN` of its result. -/
theorem logicCombinesBitwise : Obligations.LogicCombinesBitwise := by
  unfold Obligations.LogicCombinesBitwise
  exact fun o => ⟨encodedBy_encodings (i := .and o) rfl, encodedBy_encodings (i := .ora o) rfl,
    encodedBy_encodings (i := .eor o) rfl, combinesIntoA_of_exec fun s => rfl, combinesIntoA_of_exec fun s => rfl,
    combinesIntoA_of_exec fun s => rfl⟩

theorem getLsbD_six (m : Byte) : m.getLsbD 6 = decide (64 ≤ m.toNat % 128) := by
  rw [BitVec.getLsbD, Nat.testBit_eq_decide_div_mod_eq, decide_eq_decide]
  omega

/-- The flags of `BIT` by numbers: `Z` as `SetZN` of the and has it, `N` as `SetZN` of the operand. -/
theorem bitTest_eq (p : Status) (a m : Byte) :
    p.bitTest a m =
      { p with z := decide ((a &&& m).toNat = 0), n := decide (128 ≤ m.toNat), v := decide (64 ≤ m.toNat % 128) } := by
  have hz := congrArg Status.z (setZN_eq_withZN p (a &&& m))
  have hn := congrArg Status.n (setZN_eq_withZN p m)
  rw [Status.setZN_z] at hz
  rw [Status.setZN_n] at hn
  rw [Status.bitTest, hz, hn, getLsbD_six]
  rfl

theorem exec_bit (m : EaMode) (s : State) :
    exec (.bit m) s = .next ((readOperand (.mem m) s).2.setP (s.p.bitTest s.a (readOperand (.mem m) s).1)) := by
  simp only [exec, execBit, readOperand_registers]

/-- Settles O40: `BIT` writes three flags after the operand read. -/
theorem bitTestsTheOperand : Obligations.BitTestsTheOperand := by
  unfold Obligations.BitTestsTheOperand
  intro m s
  have h := exec_bit m s
  rw [readOperand_state_setP, bitTest_eq] at h
  exact ⟨encodedBy_encodings (i := .bit m) rfl, _, h, rfl, fun b => rfl⟩

/-! ## Compare (R159 to R162) -/

/-- `Compare` by numbers (R159): the adder computes `reg - m`, with no borrow in. -/
theorem compare_eq (p : Status) (reg m : Byte) :
    p.compare reg m =
      { p with
        c := decide (m.toNat ≤ reg.toNat), z := decide (m = reg)
        n := decide (128 ≤ (reg.toNat + 256 - m.toNat) % 256) } := by
  have hreg := reg.isLt
  have hm := m.isLt
  have hr : (addC reg (m ^^^ 0xFF) true).r.toNat = (reg.toNat + 256 - m.toNat) % 256 := by
    rw [addC_r_toNat, toNat_add_inverted]
    rfl
  have hz : (reg.toNat + 256 - m.toNat) % 256 = 0 ↔ m = reg := by
    rw [← BitVec.toNat_inj]
    omega
  rw [Status.compare, setZN_eq_withZN, withZN, addC_inverted_c, hr, decide_eq_decide.mpr hz]
  rfl

theorem compares_of_exec {i : Instr} {o : Src} {reg : State → Byte}
    (hexec : ∀ s, exec i s = .next ((readOperand o s).2.setP
      ((readOperand o s).2.p.compare (reg (readOperand o s).2) (readOperand o s).1)))
    (hreg : ∀ (s : State) rs es, reg (s.logged rs es) = reg s) : Compares i o reg := by
  intro s
  obtain ⟨rs, es, hread⟩ := readOperand_effect o s
  have hp : (readOperand o s).2.p = s.p := by rw [hread, State.logged_p]
  have hr : reg (readOperand o s).2 = reg s := by rw [hread, hreg]
  have h := hexec s
  rw [hp, hr, readOperand_state_setP, compare_eq] at h
  exact ⟨_, h, rfl, fun b => rfl⟩

/-- Settles O41: a compare's body is the operand read and `Compare` with one register, which the read leaves as it was. -/
theorem comparesSetCZN : Obligations.ComparesSetCZN := by
  unfold Obligations.ComparesSetCZN
  exact fun o => ⟨encodedBy_encodings (i := .cmp o) rfl, encodedBy_encodings (i := .cpx o) rfl,
    encodedBy_encodings (i := .cpy o) rfl, compares_of_exec (fun s => rfl) State.logged_a,
    compares_of_exec (fun s => rfl) State.logged_x, compares_of_exec (fun s => rfl) State.logged_y⟩

/-! ## Increment and decrement (R163 to R168) -/

theorem add_one_eq_ofNat (v : Byte) : v + 1 = BitVec.ofNat 8 (v.toNat + 1) := rfl

/-- Modulo 0x100, 255 more is 1 less. -/
theorem sub_one_eq_ofNat (v : Byte) : v - 1 = BitVec.ofNat 8 (v.toNat + 255) := by
  rw [BitVec.sub_eq_add_neg]
  rfl

/-- A read-modify-write body: one read and one write of the effective address, and the flags. A read leaves memory and every
register, and finding the address leaves the whole state. -/
theorem rewrites_of_exec {i : Instr} {m : EaMode} {result : State → Byte → Byte} {flags : State → Byte → Status}
    (hexec : ∀ s, exec i s = .next ((busWrite (resolve m s).1 (result s (busRead (resolve m s).1 s).1)
      (busRead (resolve m s).1 s).2).setP (flags s (busRead (resolve m s).1 s).1))) : Rewrites i m result flags := by
  intro s hs
  have hread := busRead_evolves (resolve m s).1 s
  have hkept := hread.trans (busWrite_evolves (resolve m s).1 (result s (busRead (resolve m s).1 s).1) _)
  exact ⟨_, hexec s, stored_busWrite (wf_of_inv (inv_of_evolves hread hs)) _ _, by simp [RegistersKept], rfl,
    hkept.prg, hkept.prgPages, hkept.cyc, hkept.poweredOn⟩

/-- The flags of a read-modify-write that ends in `SetZN` of the byte written: a bus access leaves the flags. -/
theorem rewrites_of_setZN {i : Instr} {m : EaMode} {f : Byte → Byte}
    (hexec : ∀ s, exec i s = .next ((busWrite (resolve m s).1 (f (busRead (resolve m s).1 (resolve m s).2).1)
      (busRead (resolve m s).1 (resolve m s).2).2).setZN (f (busRead (resolve m s).1 (resolve m s).2).1))) :
    Rewrites i m (fun _ v => f v) (fun s v => s.p.setZN (f v)) :=
  rewrites_of_exec fun s => by
    simp only [hexec, resolve_state, State.setZN, busWrite_registers, busRead_registers]

/-- Settles O42: both bodies are a read-modify-write of the byte plus or minus 1. -/
theorem incDecRewriteMemory : Obligations.IncDecRewriteMemory := by
  unfold Obligations.IncDecRewriteMemory
  simp only [← add_one_eq_ofNat, ← sub_one_eq_ofNat, ← setZN_eq_withZN]
  exact fun m => ⟨encodedBy_encodings (i := .inc m) rfl, encodedBy_encodings (i := .dec m) rfl,
    rewrites_of_setZN (f := fun v => v + 1) fun s => rfl, rewrites_of_setZN (f := fun v => v - 1) fun s => rfl⟩

/-- Settles O43: an index instruction's body is one register update and `SetZN`. -/
theorem indexIncrementsWrap : Obligations.IndexIncrementsWrap := by
  unfold Obligations.IndexIncrementsWrap
  simp only [← add_one_eq_ofNat, ← sub_one_eq_ofNat]
  exact ⟨transfers_of_exec rfl (fun s => rfl) (fun s v b => rfl), transfers_of_exec rfl (fun s => rfl) (fun s v b => rfl),
    transfers_of_exec rfl (fun s => rfl) (fun s v b => rfl), transfers_of_exec rfl (fun s => rfl) (fun s v b => rfl)⟩

end Sys2Proof.Proofs

namespace Sys2Proof.Proofs

open Sys2Proof.Machine Sys2Proof.Claims

/-! ## Shift and rotate by numbers (43_shift_rotate.md R180 to R184) -/

theorem getLsbD_zero (v : Byte) : v.getLsbD 0 = decide (v.toNat % 2 = 1) := by
  rw [BitVec.getLsbD, Nat.testBit_zero]

theorem getLsbD_seven (v : Byte) : v.getLsbD 7 = decide (128 ≤ v.toNat) := by
  rw [← BitVec.msb_eq_getLsbD_last, BitVec.msb_eq_decide]

/-- The carry comes into the bit the shift left empty, so that the two add. -/
theorem shiftLeft_or_carry (v : Byte) (c : Bool) :
    v <<< 1 ||| (BitVec.ofBool c).setWidth 8 = v <<< 1 + (BitVec.ofBool c).setWidth 8 := by
  refine (BitVec.add_eq_or_of_and_eq_zero _ _ ?_).symm
  ext i hi
  by_cases h : i = 0 <;> simp [h]

theorem shiftRight_or_carry (v : Byte) (c : Bool) :
    v >>> 1 ||| (BitVec.ofBool c).setWidth 8 <<< 7 = v >>> 1 + (BitVec.ofBool c).setWidth 8 <<< 7 := by
  refine (BitVec.add_eq_or_of_and_eq_zero _ _ ?_).symm
  ext i hi
  obtain h | rfl : i < 7 ∨ i = 7 := by omega
  · simp [h]
  · simp

theorem carry_toNat (c : Bool) : ((BitVec.ofBool c).setWidth 8).toNat = c.toNat := by
  cases c <;> rfl

/-- `Shift` by numbers (R180): one bit to the left doubles, one bit to the right halves. -/
theorem shift_eq (kind : ShiftKind) (v : Byte) (c : Bool) : shift kind v c = (shifted kind v c, shiftedOut kind v) := by
  have hc := Bool.toNat_lt c
  cases kind with
  | asl =>
    refine Prod.ext (BitVec.eq_of_toNat_eq ?_) (getLsbD_seven v)
    simp only [shift, shifted, BitVec.toNat_shiftLeft, BitVec.toNat_ofNat, Nat.shiftLeft_eq]
    omega
  | lsr =>
    refine Prod.ext (BitVec.eq_of_toNat_eq ?_) (getLsbD_zero v)
    simp only [shift, shifted, BitVec.toNat_ushiftRight, BitVec.toNat_ofNat, Nat.shiftRight_eq_div_pow]
    omega
  | rol =>
    refine Prod.ext (BitVec.eq_of_toNat_eq ?_) (getLsbD_seven v)
    simp only [shift, shifted, shiftLeft_or_carry, BitVec.toNat_add, BitVec.toNat_shiftLeft, BitVec.toNat_ofNat,
      Nat.shiftLeft_eq, carry_toNat]
    omega
  | ror =>
    refine Prod.ext (BitVec.eq_of_toNat_eq ?_) (getLsbD_zero v)
    simp only [shift, shifted, shiftRight_or_carry, BitVec.toNat_add, BitVec.toNat_ushiftRight, BitVec.toNat_shiftLeft,
      BitVec.toNat_ofNat, Nat.shiftRight_eq_div_pow, Nat.shiftLeft_eq, carry_toNat]
    omega

theorem setShift_shifted (kind : ShiftKind) (s : State) (v : Byte) :
    s.p.setShift (shifted kind v s.p.c, shiftedOut kind v) = shiftFlags kind s v := by
  rw [Status.setShift, setZN_eq_withZN, shiftFlags]

/-- A bus write neither reads nor writes the flags (20_memory.md R53). -/
theorem busWrite_setP (a : Addr) (v : Byte) (p : Status) (s : State) :
    busWrite a v (s.setP p) = (busWrite a v s).setP p := by
  unfold busWrite
  cases route a <;> rfl

theorem shiftInstr_acc (kind : ShiftKind) (s : State) :
    shiftInstr kind .acc s = { s with a := shifted kind s.a s.p.c, p := shiftFlags kind s s.a } := by
  rw [shiftInstr, shift_eq, setShift_shifted]
  rfl

theorem shiftInstr_mem (kind : ShiftKind) (m : EaMode) (s : State) :
    shiftInstr kind (.mem m) s =
      (busWrite (resolve m s).1 (shifted kind (busRead (resolve m s).1 s).1 s.p.c) (busRead (resolve m s).1 s).2).setP
        (shiftFlags kind s (busRead (resolve m s).1 s).1) := by
  simp only [shiftInstr, resolve_state, busRead_registers, busWrite_setP, shift_eq, setShift_shifted]

theorem shifts_of_exec {mk : ShiftOperand → Instr} {kind : ShiftKind} {table : List (Mode × Byte)}
    (hencode : ∀ o, EncodedBy (mk o) o.mode o.bytes table)
    (hexec : ∀ o s, exec (mk o) s = .next (shiftInstr kind o s)) : Shifts mk kind table := by
  refine ⟨hencode, fun s => ⟨_, ?_, rfl, fun b => rfl⟩, fun m => rewrites_of_exec fun s => ?_⟩
  · rw [hexec, shiftInstr_acc]
  · rw [hexec, shiftInstr_mem]

/-- Settles O44: each of the four bodies is `ShiftInstr` of its kind, on `A` or as a read-modify-write. -/
theorem shiftsMoveOneBit : Obligations.ShiftsMoveOneBit := by
  unfold Obligations.ShiftsMoveOneBit
  exact ⟨shifts_of_exec (fun o => encodedBy_encodings (i := .asl o) rfl) fun o s => rfl,
    shifts_of_exec (fun o => encodedBy_encodings (i := .lsr o) rfl) fun o s => rfl,
    shifts_of_exec (fun o => encodedBy_encodings (i := .rol o) rfl) fun o s => rfl,
    shifts_of_exec (fun o => encodedBy_encodings (i := .ror o) rfl) fun o s => rfl⟩

/-! ## The ring of nine bits that a rotate turns (R183, R184) -/

/-- `A` with the carry above bit 7. -/
def carryRing (s : State) : BitVec 9 := .cons s.p.c s.a

/-- The byte and the carry of nine bits, in the form in which `Shift` answers them. -/
def ringParts (w : BitVec 9) : Byte × Bool := (w.setWidth 8, w.msb)

/-- The state after a shift of `A` that answered these nine bits. -/
def withRing (s : State) (w : BitVec 9) : State := (s.setP (s.p.setShift (ringParts w))).setA (ringParts w).1

theorem carryRing_withRing (s : State) (w : BitVec 9) : carryRing (withRing s w) = w := BitVec.cons_msb_setWidth w

theorem withRing_withRing (s : State) (w w' : BitVec 9) : withRing (withRing s w) w' = withRing s w' := rfl

/-- Writing the ring that is there changes `Z` and `N` only. -/
theorem withRing_carryRing (s : State) : withRing s (carryRing s) = { s with p := withZN s.p s.a } := by
  have h : ringParts (carryRing s) = (s.a, s.p.c) := by rw [ringParts, carryRing, BitVec.setWidth_cons, BitVec.msb_cons]
  rw [withRing, h, Status.setShift, setZN_eq_withZN]
  rfl

/-- Bit 0 comes from the carry and every other bit from the one below it. -/
theorem shift_rol (v : Byte) (c : Bool) : shift .rol v c = ringParts ((BitVec.cons c v).rotateLeft 1) := by
  refine Prod.ext (BitVec.eq_of_getElem_eq fun i hi => ?_) ?_
  · cases i with
    | zero => simp [shift, ringParts, BitVec.getElem_cons]
    | succ i =>
      have hlt : i + 1 < 9 := by omega
      have hne : i ≠ 8 := by omega
      simp [shift, ringParts, BitVec.getElem_cons, hlt, hne]
  · simp [shift, ringParts, BitVec.msb_eq_getLsbD_last, BitVec.getElem_cons]

/-- Bit 7 comes from the carry and every other bit from the one above it. -/
theorem shift_ror (v : Byte) (c : Bool) : shift .ror v c = ringParts ((BitVec.cons c v).rotateRight 1) := by
  refine Prod.ext (BitVec.eq_of_getElem_eq fun i hi => ?_) ?_
  · obtain h | rfl : i < 7 ∨ i = 7 := by omega
    · have hne : 1 + i ≠ 8 := by omega
      simp [shift, ringParts, BitVec.getLsbD_cons, h, hi, hne]
    · simp [shift, ringParts, BitVec.getElem_cons]
  · simp [shift, ringParts, BitVec.msb_eq_getLsbD_last, BitVec.getElem_cons]

theorem exec_rol_acc (s : State) : exec (.rol .acc) s = .next (withRing s ((carryRing s).rotateLeft 1)) := by
  rw [withRing, carryRing, ← shift_rol]
  rfl

theorem exec_ror_acc (s : State) : exec (.ror .acc) s = .next (withRing s ((carryRing s).rotateRight 1)) := by
  rw [withRing, carryRing, ← shift_ror]
  rfl

theorem rotateLeft_rotateLeft_one (w : BitVec 9) (n : Nat) : (w.rotateLeft n).rotateLeft 1 = w.rotateLeft (n + 1) := by
  ext i hi
  simp only [BitVec.getElem_rotateLeft]
  grind

theorem rotateLeft_one_iterate (w : BitVec 9) (n : Nat) : (BitVec.rotateLeft · 1)^[n] w = w.rotateLeft n := by
  induction n with
  | zero =>
    ext i
    simp
  | succ n ih => rw [Function.iterate_succ_apply', ih, rotateLeft_rotateLeft_one]

theorem rotateLeft_one_iterate_nine (w : BitVec 9) : (BitVec.rotateLeft · 1)^[9] w = w := by
  rw [rotateLeft_one_iterate, ← BitVec.rotateLeft_mod_eq_rotateLeft, ← rotateLeft_one_iterate]
  rfl

theorem rotateRight_one_rotateLeft_one :
    Function.LeftInverse (BitVec.rotateRight (w := 9) · 1) (BitVec.rotateLeft · 1) := by
  intro w
  ext i hi
  simp only [BitVec.getElem_rotateLeft, BitVec.getElem_rotateRight]
  grind

/-- Nine turns to the right undo nine turns to the left, which change nothing. -/
theorem rotateRight_one_iterate_nine (w : BitVec 9) : (BitVec.rotateRight · 1)^[9] w = w := by
  have h := rotateRight_one_rotateLeft_one.iterate 9 w
  rwa [rotateLeft_one_iterate_nine] at h

/-- A body that turns the ring, executed one time or more, turns it as often. -/
theorem times_succ_of_turn {i : Instr} {turn : BitVec 9 → BitVec 9}
    (hexec : ∀ s, exec i s = .next (withRing s (turn (carryRing s)))) (n : Nat) (s : State) :
    times (n + 1) i s = .next (withRing s (turn^[n + 1] (carryRing s))) := by
  induction n generalizing s with
  | zero =>
    rw [times, hexec]
    rfl
  | succ n ih =>
    rw [times, hexec]
    dsimp only
    rw [ih, carryRing_withRing, withRing_withRing, Function.iterate_succ_apply turn (n + 1)]

theorem nine_times_of_turn {i : Instr} {turn : BitVec 9 → BitVec 9}
    (hexec : ∀ s, exec i s = .next (withRing s (turn (carryRing s)))) (hnine : ∀ w, turn^[9] w = w) (s : State) :
    times 9 i s = .next { s with p := withZN s.p s.a } := by
  rw [times_succ_of_turn hexec 8, hnine, withRing_carryRing]

/-- Settles O45: `ROL A` and `ROR A` turn the ring of nine bits by one, so that nine of them turn it once round. -/
theorem nineRotatesRestore : Obligations.NineRotatesRestore := by
  unfold Obligations.NineRotatesRestore
  exact fun s => ⟨nine_times_of_turn (turn := (BitVec.rotateLeft · 1)) exec_rol_acc rotateLeft_one_iterate_nine s,
    nine_times_of_turn (turn := (BitVec.rotateRight · 1)) exec_ror_acc rotateRight_one_iterate_nine s⟩

end Sys2Proof.Proofs

namespace Sys2Proof.Proofs

open Sys2Proof.Machine Sys2Proof.Claims

/-! ## The step of a known body (30_encoding.md R90) -/

/-- O5 where the body's answer is known: the step adds the opcode's cost to it. -/
theorem step_of_exec {s t : State} {i : Instr} {op : Byte} {operands : List Byte} (hon : s.poweredOn = true)
    (hencode : encode i = some (op :: operands))
    (hpeek : ∀ (k : Nat) (h : k < (op :: operands).length), s.peek (s.pc + BitVec.ofNat 16 k) = some (op :: operands)[k])
    (hexec : exec i (s.setPc (s.pc + BitVec.ofNat 16 (op :: operands).length)) = .next t) :
    step s = .next (t.setCyc (t.cyc + cycleCost op)) := by
  obtain ⟨t', hexec', hstep⟩ := stepRunsTheDecodedInstruction s i op operands hon hencode hpeek
  obtain rfl : t' = t := Host.Outcome.next.inj (hexec'.symm.trans hexec)
  exact hstep

/-- One byte at `PC`, as a step looks at it. -/
theorem peek_one {s : State} {op : Byte} (h : s.peek s.pc = some op) (k : Nat) (hk : k < [op].length) :
    s.peek (s.pc + BitVec.ofNat 16 k) = some [op][k] := by
  match k, hk with
  | 0, _ => simpa using h

/-- Three bytes from `PC` on, as a step looks at them. -/
theorem peek_three {s : State} {op b1 b2 : Byte} (h0 : s.peek s.pc = some op) (h1 : s.peek (s.pc + 1) = some b1)
    (h2 : s.peek (s.pc + 2) = some b2) (k : Nat) (hk : k < [op, b1, b2].length) :
    s.peek (s.pc + BitVec.ofNat 16 k) = some [op, b1, b2][k] := by
  match k, hk with
  | 0, _ => simpa using h0
  | 1, _ => exact h1
  | 2, _ => exact h2

/-! ## `JMP` (44_control_flow.md R191) -/

theorem exec_jmp_ind (w : Addr) (s : State) :
    exec (.jmp (.ind w)) s = .next ((memRead16 w s).2.setPc (memRead16 w s).1) := rfl

/-- A 16-bit read changes the two streams only. -/
theorem memRead16_state (w : Addr) (s : State) :
    (memRead16 w s).2 = { s with report := (memRead16 w s).2.report, periph := (memRead16 w s).2.periph } := by
  obtain ⟨rs, es, h⟩ := memRead16_effect w s
  rw [h]
  rfl

/-- Settles O46: the target is the operand or the 16-bit read at it, which only appends to the streams. -/
theorem jmpSetsPc : Obligations.JmpSetsPc := by
  unfold Obligations.JmpSetsPc
  refine fun w s => ⟨encodedBy_encodings (i := .jmp (.abs w)) rfl, encodedBy_encodings (i := .jmp (.ind w)) rfl,
    ⟨_, rfl, rfl, fun b => rfl⟩, ?_, fun lo hi hlo hhi => ?_⟩
  · have h := exec_jmp_ind w s
    rw [memRead16_state] at h
    exact ⟨_, h, fun b => rfl, rfl⟩
  · rw [exec_jmp_ind, memRead16_of_peek hlo hhi]
    rfl

/-! ## `JSR` (R192) -/

/-- `t` is `s` with the word `v` pushed (10_state.md R31): its bytes at their two stack locations, `SP` two lower, nothing else changed. -/
structure WordPushed (v : Addr) (s t : State) : Prop where
  sp : t.sp = s.sp - 2
  high : Holds t (stackAddr s.sp) (hi8 v)
  low : Holds t (stackAddr (s.sp - 1)) (lo8 v)
  memory : ∀ b, ¬ SameCell (stackAddr s.sp) b → ¬ SameCell (stackAddr (s.sp - 1)) b → t.peek b = s.peek b
  registers : t.a = s.a ∧ t.x = s.x ∧ t.y = s.y ∧ t.p = s.p
  streams : StreamsKept s t
  rest : RestKept s t

theorem push16_memory (v : Addr) (s : State) (b : Addr) (hhigh : ¬ SameCell (stackAddr s.sp) b)
    (hlow : ¬ SameCell (stackAddr (s.sp - 1)) b) : (push16 v s).peek b = s.peek b := by
  rw [push16, push8_memoryKeptBut _ _ b (by rwa [push8_sp]), push8_memoryKeptBut _ s b hhigh]

theorem wordPushed_push16 {s : State} (h : s.ram.wf = true) (v : Addr) : WordPushed v s (push16 v s) := by
  obtain ⟨hhigh, hlow⟩ := push16_read h v
  refine ⟨push16_sp v s, holds_of_read hhigh, holds_of_read hlow, push16_memory v s, ?_, ?_, ?_⟩ <;> rw [push16_eq]
  · exact ⟨rfl, rfl, rfl, rfl⟩
  · exact ⟨rfl, rfl⟩
  · exact ⟨rfl, rfl, rfl, rfl⟩

/-- The body of `JSR` looks at `PC` for the return address only. -/
theorem exec_jsr_setPc (target a : Addr) (s : State) :
    exec (.jsr target) (s.setPc a) = .next ((push16 (a - 1) s).setPc target) := by
  rw [exec, execJsr, push16_eq, push16_eq]
  rfl

theorem step_jsr {s : State} {target : Addr} (hon : s.poweredOn = true) (h0 : s.peek s.pc = some 0x20)
    (h1 : s.peek (s.pc + 1) = some (lo8 target)) (h2 : s.peek (s.pc + 2) = some (hi8 target)) :
    step s = .next (((push16 (s.pc + 2) s).setPc target).setCyc (s.cyc + cycleCost 0x20)) := by
  have hreturn : s.pc + 3 - 1 = s.pc + 2 := by bv_omega
  have hexec := exec_jsr_setPc target (s.pc + 3) s
  rw [hreturn] at hexec
  have hstep := step_of_exec hon rfl (peek_three h0 h1 h2) hexec
  rwa [State.setPc_cyc, (push16_evolves _ s).cyc] at hstep

/-- Settles O47: the body is a 16-bit push and a jump, and a step has fetched the target before it runs the body. -/
theorem jsrPushesTheReturnAddress : Obligations.JsrPushesTheReturnAddress := by
  unfold Obligations.JsrPushesTheReturnAddress
  refine fun target => ⟨rfl, fun s hon h0 h1 h2 => ⟨_, step_jsr hon h0 h1 h2, rfl⟩, fun s hs => ?_⟩
  have hexec : exec (.jsr target) s = .next ((push16 (s.pc - 1) s).setPc target) := rfl
  have hpushed := wordPushed_push16 (wf_of_inv hs) (s.pc - 1)
  -- the push is known by `hpushed` only
  generalize push16 (s.pc - 1) s = t at hexec hpushed
  obtain ⟨ha, hx, hy, hp⟩ := hpushed.registers
  exact ⟨_, hexec, rfl, hpushed.sp, hpushed.high, hpushed.low, hpushed.memory, ha, hx, hy, hp, hpushed.streams, hpushed.rest⟩

/-! ## `RTS` (R193) -/

theorem exec_rts (s : State) : exec .rts s = .next ((pop16 s).2.setPc ((pop16 s).1 + 1)) := rfl

/-- Settles O48: the pop in full is `pop16_eq`, and it changes `SP` only. -/
theorem rtsPopsAndAddsOne : Obligations.RtsPopsAndAddsOne := by
  unfold Obligations.RtsPopsAndAddsOne
  refine ⟨rfl, fun s => ?_⟩
  have h := exec_rts s
  rw [pop16_eq] at h
  exact ⟨_, _, _, peek_stack (s.sp + 1) s, peek_stack (s.sp + 2) s, h, rfl, fun b => rfl⟩

theorem pop16_setPc (a : Addr) (s : State) : pop16 (s.setPc a) = ((pop16 s).1, (pop16 s).2.setPc a) := by
  rw [pop16_eq, pop16_eq]
  rfl

theorem pop16_setCyc (n : Nat) (s : State) : pop16 (s.setCyc n) = ((pop16 s).1, (pop16 s).2.setCyc n) := by
  rw [pop16_eq, pop16_eq]
  rfl

theorem setPc_setPc (a b : Addr) (s : State) : (s.setPc a).setPc b = s.setPc b := rfl

theorem step_rts {s : State} (hon : s.poweredOn = true) (h : s.peek s.pc = some 0x60) :
    step s = .next (((pop16 s).2.setPc ((pop16 s).1 + 1)).setCyc (s.cyc + cycleCost 0x60)) := by
  have hexec := exec_rts (s.setPc (s.pc + 1))
  rw [pop16_setPc, setPc_setPc] at hexec
  have hstep := step_of_exec hon rfl (peek_one h) hexec
  rwa [State.setPc_cyc, (pop16_evolves s).cyc] at hstep

/-! ## `JSR` and then `RTS` (R194) -/

/-- Settles O49: the `RTS` pops the word that the `JSR` pushed, `P + 2`, and writes no memory. -/
theorem jsrThenRtsResumesAfterTheCall : Obligations.JsrThenRtsResumesAfterTheCall := by
  unfold Obligations.JsrThenRtsResumesAfterTheCall
  intro s target hon hs h0 h1 h2
  have hjsr := step_jsr hon h0 h1 h2
  have hpushed := wordPushed_push16 (wf_of_inv hs) (s.pc + 2)
  have hpop := pop16_push16 (wf_of_inv hs) (s.pc + 2)
  have hreturn : s.pc + 2 + 1 = s.pc + 3 := by bv_omega
  -- the push is known by `hpushed` and `hpop` only
  generalize push16 (s.pc + 2) s = t at hjsr hpushed hpop
  obtain ⟨-, -, -, hpowered⟩ := hpushed.rest
  obtain ⟨ha, hx, hy, hp⟩ := hpushed.registers
  refine ⟨_, hjsr, rfl, fun hop => ?_⟩
  have hrts := step_rts (s := (t.setPc target).setCyc (s.cyc + cycleCost 0x20)) (hpowered.trans hon) hop
  rw [pop16_setCyc, pop16_setPc, hpop] at hrts
  exact ⟨_, hrts, hreturn, rfl, ha, hx, hy, hp, fun b => rfl, hpushed.streams, hpushed.high, hpushed.low⟩

/-! ## The branches (R195 to R204) -/

/-- The offset counts as a signed number, modulo 0x10000 (R196, 40_addressing_modes.md R124). -/
theorem branchTarget_toNat (off : Byte) (s : State) :
    (((branchTarget off s).toNat : Int) - (s.pc.toNat + off.toInt)) % 0x10000 = 0 := by
  have hoff : (sext16 off).toInt = off.toInt := BitVec.toInt_signExtend_of_le (by decide)
  rw [← hoff, BitVec.toInt_eq_toNat_cond, branchTarget, BitVec.toNat_add]
  omega

theorem branches_of_exec {mk : Byte → Instr} {op : Byte} {cond : Status → Bool}
    (hencode : ∀ off, encode (mk off) = some [op, off])
    (hexec : ∀ off s, exec (mk off) s = .next (branch (cond s.p) off s)) : Branches mk op cond := by
  refine fun off => ⟨hencode off, fun s => ⟨_, hexec off s, fun htaken => ?_, fun hnot => ?_, fun b => ?_⟩⟩
  · rw [branch, if_pos htaken]
    exact ⟨rfl, branchTarget_toNat off s⟩
  · rw [branch, if_neg (by simp [hnot])]
  · cases cond s.p <;> rfl

/-- Settles O50: the eight bodies are one, with its condition. -/
theorem branchesTestOneFlag : Obligations.BranchesTestOneFlag := by
  unfold Obligations.BranchesTestOneFlag
  exact ⟨branches_of_exec (fun off => rfl) (fun off s => rfl), branches_of_exec (fun off => rfl) (fun off s => rfl),
    branches_of_exec (fun off => rfl) (fun off s => rfl), branches_of_exec (fun off => rfl) (fun off s => rfl),
    branches_of_exec (fun off => rfl) (fun off s => rfl), branches_of_exec (fun off => rfl) (fun off s => rfl),
    branches_of_exec (fun off => rfl) (fun off s => rfl), branches_of_exec (fun off => rfl) (fun off s => rfl)⟩

end Sys2Proof.Proofs

namespace Sys2Proof.Proofs

open Sys2Proof.Machine Sys2Proof.Claims

/-! ## One byte pushed or pulled (45_stack_flags_system.md R210 to R213) -/

theorem pushesByte_of_exec {i : Instr} {op : Byte} {pushed : State → Byte → Prop} {value : State → Byte}
    (hencode : encode i = some [op]) (hexec : ∀ s, exec i s = .next (push8 (value s) s)) (hvalue : ∀ s, pushed s (value s)) :
    PushesByte i op pushed := by
  refine ⟨hencode, fun s hs => ⟨_, _, hexec s, hvalue s, push8_holds (wf_of_inv hs) _, push8_memoryKeptBut _ s,
    push8_sp _ s, ?_⟩⟩
  rw [push8_eq]
  exact ⟨rfl, rfl, rfl, rfl, rfl, ⟨rfl, rfl⟩, ⟨rfl, rfl, rfl, rfl⟩⟩

/-- Settles O51: the body is one push of `A`. -/
theorem phaPushesA : Obligations.PhaPushesA := by
  unfold Obligations.PhaPushesA
  exact pushesByte_of_exec rfl (fun s => rfl) (fun s => rfl)

/-- Settles O52: the body is one push of the image with bit 4 set. -/
theorem phpPushesTheStatus : Obligations.PhpPushesTheStatus := by
  unfold Obligations.PhpPushesTheStatus
  exact pushesByte_of_exec rfl (fun s => rfl) (fun s => pByte_statusImage s.p true)

theorem exec_pla (s : State) : exec .pla s = .next (((pop8 s).2.setA (pop8 s).1).setZN (pop8 s).1) := rfl

/-- Settles O53: the body is one pop into `A` and `SetZN` of the byte. -/
theorem plaPullsA : Obligations.PlaPullsA := by
  unfold Obligations.PlaPullsA
  refine ⟨rfl, fun s => ?_⟩
  have h := exec_pla s
  rw [State.setZN, setZN_eq_withZN, pop8_eq] at h
  exact ⟨_, _, peek_stack (s.sp + 1) s, h, rfl, fun _ => rfl⟩

theorem exec_plp (s : State) : exec .plp s = .next ((pop8 s).2.setP ((pop8 s).2.p.load (pop8 s).1 true)) := rfl

/-- Settles O54: the body is one pop and a load of the flags that keeps `B`. -/
theorem plpPullsTheStatus : Obligations.PlpPullsTheStatus := by
  unfold Obligations.PlpPullsTheStatus
  refine ⟨rfl, fun s => ?_⟩
  have h := exec_plp s
  rw [pop8_eq] at h
  exact ⟨_, _, peek_stack (s.sp + 1) s, h, rfl, fun _ => rfl⟩

/-! ## One flag, and nothing (R214 to R221) -/

theorem setsFlag_of_exec {i : Instr} {op : Byte} {p' : Status → Status} (hencode : encode i = some [op])
    (hexec : ∀ s, exec i s = .next (s.setP (p' s.p))) : SetsFlag i op p' :=
  ⟨hencode, fun s => ⟨_, hexec s, rfl, fun _ => rfl⟩⟩

/-- The one writer of `V` that cannot set it is `CLV`. -/
theorem kind_of_v_set {i : Instr} {s t : State} (h : exec i s = .next t) (hclear : s.p.v = false) (hset : t.p.v = true) :
    i.kind ∈ [some Mnemonic.adc, some .sbc, some .bit, some .plp, some .rti] := by
  obtain ⟨-, -, -, -, -, hkept, -⟩ := onlyTheListedInstructionsWriteAFlag i s t h
  have not_clv : i.kind ≠ some .clv := by
    intro hclv
    cases i with
    | clv =>
      cases h
      cases hset
    | _ => cases hclv
  by_contra hkind
  have same : t.p.v = s.p.v := hkept (by simpa [not_clv] using hkind)
  rw [hset, hclear] at same
  cases same

/-- Settles O55: each body is one update of the status word; O13 lists the writers of `V`. -/
theorem flagInstructionsWriteOneFlag : Obligations.FlagInstructionsWriteOneFlag := by
  unfold Obligations.FlagInstructionsWriteOneFlag
  exact ⟨setsFlag_of_exec rfl fun s => rfl, setsFlag_of_exec rfl fun s => rfl, setsFlag_of_exec rfl fun s => rfl,
    setsFlag_of_exec rfl fun s => rfl, setsFlag_of_exec rfl fun s => rfl, setsFlag_of_exec rfl fun s => rfl,
    setsFlag_of_exec rfl fun s => rfl, fun i s t h => kind_of_v_set h⟩

/-- Settles O56: the step is the fetch of one byte and its cost. -/
theorem nopOnlyAdvances : Obligations.NopOnlyAdvances := by
  unfold Obligations.NopOnlyAdvances
  exact ⟨rfl, fun s => rfl, fun s hon h => step_of_exec hon (i := .nop) rfl (peek_one h) rfl⟩

/-! ## `BRK` (R224, 60_exceptions.md R247) -/

/-- The interrupt vector lies in the last two bytes of the cartridge's high page, so memory stands behind it. -/
theorem peek_interruptVector (s : State) :
    ∃ lo hi, s.peek interruptVector = some lo ∧ s.peek (interruptVector + 1) = some hi :=
  ⟨_, _, peek_of_prgIndex (prgIndex_highPage s.prgPages (k := 0x3FFE) (by decide)),
    peek_of_prgIndex (prgIndex_highPage s.prgPages (k := 0x3FFF) (by decide))⟩

/-- The vector is read after the pushes, which do not reach it: the pushes change RAM only. -/
theorem enterTrap_pc {s : State} {lo hi : Byte} (hlo : s.peek interruptVector = some lo)
    (hhi : s.peek (interruptVector + 1) = some hi) : (enterTrap s).pc = word hi lo := by
  have kept {a : Addr} (ha : 0x2000 ≤ a.toNat) (p : Status) :
      ((push8 (pByte s.p true) (push16 s.pc s)).setP p).peek a = s.peek a :=
    have hpushes := ((push16_evolves s.pc s).trans (push8_evolves (pByte s.p true) _)).setP p
    peek_high hpushes.prg hpushes.prgPages ha
  rw [enterTrap_eq, State.setPc_pc, memRead16_of_peek ((kept (by decide) _).trans hlo) ((kept (by decide) _).trans hhi)]

theorem enterTrap_sp (s : State) : (enterTrap s).sp = s.sp - 3 := by
  have three : s.sp - 2 - 1 = s.sp - 3 := by bv_omega
  simp only [enterTrap_eq, State.setPc_sp, State.setP_sp, push8_sp, push16_sp, three]

theorem enterTrap_p (s : State) : (enterTrap s).p = { s.p with b := true, i := true } := by
  simp only [enterTrap_eq, State.setPc_p, State.setP_p]

theorem enterTrap_registers (s : State) : (enterTrap s).a = s.a ∧ (enterTrap s).x = s.x ∧ (enterTrap s).y = s.y := by
  simp [enterTrap_eq, push8_eq, push16_eq]

theorem enterTrap_streamsKept (s : State) : StreamsKept s (enterTrap s) := by
  simp [StreamsKept, enterTrap_eq, push8_eq, push16_eq]

theorem enterTrap_restKept (s : State) : RestKept s (enterTrap s) := by
  have h := enterTrap_evolves s
  exact ⟨h.prg, h.prgPages, h.cyc, h.poweredOn⟩

theorem enterTrap_ram (s : State) : (enterTrap s).ram = (push8 (pByte s.p true) (push16 s.pc s)).ram := by
  simp only [enterTrap_eq, State.setPc_ram, State.setP_ram]

/-- The three cells of the trap's pushes differ, so each holds its own byte afterwards. -/
theorem enterTrap_read {s : State} (h : s.ram.wf = true) :
    (enterTrap s).ram.read (0x100 + s.sp.toNat) = hi8 s.pc ∧
      (enterTrap s).ram.read (0x100 + (s.sp - 1).toNat) = lo8 s.pc ∧
      (enterTrap s).ram.read (0x100 + (s.sp - 2).toNat) = pByte s.p true := by
  obtain ⟨hhigh, hlow⟩ := push16_read h s.pc
  have high_ne : 0x100 + s.sp.toNat ≠ 0x100 + (s.sp - 2).toNat := by bv_omega
  have low_ne : 0x100 + (s.sp - 1).toNat ≠ 0x100 + (s.sp - 2).toNat := by bv_omega
  rw [enterTrap_ram, push8_eq, push16_sp, State.setSp_ram, State.setRam_ram]
  refine ⟨?_, ?_, Memory.read_write_same ((push16_evolves s.pc s).ram.keeps_wf h) _ _⟩
  · rw [Memory.read_write_other _ _ high_ne, hhigh]
  · rw [Memory.read_write_other _ _ low_ne, hlow]

theorem enterTrap_memory (s : State) (b : Addr) (hhigh : ¬ SameCell (stackAddr s.sp) b)
    (hlow : ¬ SameCell (stackAddr (s.sp - 1)) b) (hstatus : ¬ SameCell (stackAddr (s.sp - 2)) b) :
    (enterTrap s).peek b = s.peek b := by
  simp only [enterTrap_eq, State.peek_setPc, State.peek_setP]
  rw [push8_memoryKeptBut _ _ b (by rwa [push16_sp]), push16_memory s.pc s b hhigh hlow]

/-- Settles O57: the body is the trap, whose pushes, vector and frame are the lemmas above. -/
theorem brkTakesTheTrap : Obligations.BrkTakesTheTrap := by
  unfold Obligations.BrkTakesTheTrap
  refine ⟨rfl, fun s hs => ?_⟩
  obtain ⟨lo, hi, hlo, hhi⟩ := peek_interruptVector s
  obtain ⟨high, low, status⟩ := enterTrap_read (wf_of_inv hs)
  obtain ⟨ha, hx, hy⟩ := enterTrap_registers s
  exact ⟨enterTrap s, pByte s.p true, lo, hi, rfl, hlo, hhi, enterTrap_pc hlo hhi, enterTrap_sp s, pByte_statusImage s.p true,
    holds_of_read high, holds_of_read low, holds_of_read status, enterTrap_memory s, enterTrap_p s, ha, hx, hy,
    enterTrap_streamsKept s, enterTrap_restKept s⟩

/-! ## `RTI` (R225, R248) -/

/-- Settles O58: the return in full is `returnFromTrap_eq`, and it changes `SP`, the flags and `PC` only. -/
theorem rtiRestoresStatusAndPc : Obligations.RtiRestoresStatusAndPc := by
  unfold Obligations.RtiRestoresStatusAndPc
  refine ⟨rfl, fun s => ?_⟩
  have hexec : exec .rti s = .next (returnFromTrap s) := rfl
  rw [returnFromTrap_eq] at hexec
  exact ⟨_, _, _, _, peek_stack (s.sp + 1) s, peek_stack (s.sp + 2) s, peek_stack (s.sp + 3) s, hexec, rfl, fun _ => rfl⟩

/-! ## `BRK` and then `RTI` (R222) -/

/-- The image that a trap pushes loads the flags it was made of, with `B` set. -/
theorem load_pByte_true (p q : Status) : q.load (pByte p true) false = { p with b := true } :=
  load_pByte { p with b := true }

theorem returnFromTrap_enterTrap {s : State} (h : s.ram.wf = true) :
    returnFromTrap (enterTrap s) = (((enterTrap s).setSp s.sp).setP { s.p with b := true }).setPc s.pc := by
  obtain ⟨high, low, status⟩ := enterTrap_read h
  have first : s.sp - 3 + 1 = s.sp - 2 := by bv_omega
  have second : s.sp - 3 + 2 = s.sp - 1 := by bv_omega
  have third : s.sp - 3 + 3 = s.sp := by bv_omega
  rw [returnFromTrap_eq, enterTrap_sp, first, second, third, status, low, high, word_hi8_lo8, load_pByte_true]

/-- The body of `RTI` does not look at `PC`, nor at the cycle counter. -/
theorem returnFromTrap_setPc (a : Addr) (s : State) : returnFromTrap (s.setPc a) = returnFromTrap s := by
  rw [returnFromTrap_eq, returnFromTrap_eq]
  rfl

theorem returnFromTrap_setCyc (n : Nat) (s : State) : returnFromTrap (s.setCyc n) = (returnFromTrap s).setCyc n := by
  rw [returnFromTrap_eq, returnFromTrap_eq]
  rfl

theorem step_brk {s : State} (hon : s.poweredOn = true) (h : s.peek s.pc = some 0x00) :
    step s = .next ((enterTrap (s.setPc (s.pc + 1))).setCyc (s.cyc + cycleCost 0x00)) := by
  have hstep := step_of_exec hon (i := .brk) rfl (peek_one h) rfl
  rwa [(enterTrap_evolves _).cyc, State.setPc_cyc] at hstep

theorem step_rti {s : State} (hon : s.poweredOn = true) (h : s.peek s.pc = some 0x40) :
    step s = .next ((returnFromTrap s).setCyc (s.cyc + cycleCost 0x40)) := by
  have hstep := step_of_exec hon (i := .rti) rfl (peek_one h) rfl
  rwa [returnFromTrap_setPc, (returnFromTrap_evolves s).cyc] at hstep

/-- Settles O59: the trap is taken with `PC` past the `BRK`, and the `RTI` pops what it pushed and writes no memory. -/
theorem brkThenRtiRestores : Obligations.BrkThenRtiRestores := by
  unfold Obligations.BrkThenRtiRestores
  intro s hon hs hop
  have hbrk := step_brk hon hop
  have hreturn := returnFromTrap_enterTrap (s := s.setPc (s.pc + 1)) (wf_of_inv hs)
  obtain ⟨ha, hx, hy⟩ := enterTrap_registers (s.setPc (s.pc + 1))
  have hstreams := enterTrap_streamsKept (s.setPc (s.pc + 1))
  have hpowered := (enterTrap_evolves (s.setPc (s.pc + 1))).poweredOn
  -- the trap is known by these facts only
  generalize enterTrap (s.setPc (s.pc + 1)) = t at *
  refine ⟨_, hbrk, fun hhandler => ?_⟩
  have hrti := step_rti (s := t.setCyc (s.cyc + cycleCost 0x00)) (hpowered.trans hon) hhandler
  rw [returnFromTrap_setCyc, hreturn] at hrti
  exact ⟨_, hrti, rfl, rfl, rfl, ha, hx, hy, fun b => rfl, hstreams⟩

/-! ## The unimplemented opcodes (R226, 30_encoding.md R98) -/

theorem encode_unimpl {op : Byte} (h : op ∈ unimplementedOpcodes) : encode (.unimpl op) = some [op] := by
  rw [encode, Instr.opcode, if_pos (List.contains_iff_mem.mpr h)]
  rfl

/-- A byte decodes to an unimplemented instruction iff it is one of R98's values, whatever follows it. -/
theorem decode_eq_unimpl_iff {op : Byte} {rest : List Byte} :
    decode (op :: rest) = .ok (.unimpl op, rest) ↔ op ∈ unimplementedOpcodes := by
  constructor
  · intro h
    obtain ⟨hwf, -⟩ := encodeUndoesDecode _ _ _ h
    exact List.contains_iff_mem.mp hwf
  · intro h
    obtain ⟨bs, hencode, hdecode⟩ := decodeUndoesEncode _ (wf_of_encode (encode_unimpl h))
    obtain rfl : [op] = bs := Option.some.inj ((encode_unimpl h).symm.trans hencode)
    exact hdecode rest

/-- Settles O60: the body is one report, and the step is the fetch of one byte, that report and the opcode's cost. -/
theorem unimplementedOpcodeIsAReportedNoOp : Obligations.UnimplementedOpcodeIsAReportedNoOp := by
  unfold Obligations.UnimplementedOpcodeIsAReportedNoOp
  exact fun op => ⟨fun s => rfl, fun rest => decode_eq_unimpl_iff,
    fun s hop hon hpeek => step_of_exec hon (encode_unimpl hop) (peek_one hpeek) rfl⟩

end Sys2Proof.Proofs

namespace Sys2Proof.Proofs

open Sys2Proof.Machine Sys2Proof.Claims

/-! ## An opcode fetch from an unhandled address (60_exceptions.md R249) -/

/-- The byte that an unhandled read gives is the whole encoding of `BRK` (45_stack_flags_system.md R224). -/
theorem decode_unhandledReadValue : decode [unhandledReadValue] = .ok (.brk, []) :=
  decode_of_encode (i := .brk) rfl

/-- Settles O7: the opcode read reports and gives 0x00, which is `BRK` in one byte, so O6's clause for one byte applies. -/
theorem fetchFromUnhandledRunsBrk : Obligations.FetchFromUnhandledRunsBrk := by
  unfold Obligations.FetchFromUnhandledRunsBrk
  intro s hon hlo hhi
  obtain ⟨-, one_byte, -⟩ := stepFetchesThroughTheBus s hon
  have hread := busRead_unhandled hlo hhi s
  rw [hread] at one_byte
  exact one_byte .brk decode_unhandledReadValue

end Sys2Proof.Proofs

namespace Sys2Proof.Proofs

open Sys2Proof.Machine Sys2Proof.Claims

/-! ## The cost of a step (70_reset_and_hazards.md R282) -/

/-- The opcode byte is the bus read at `PC` (30_encoding.md R90, R91). -/
theorem fetchInstr_op (s : State) : (fetchInstr s).op = (busRead s.pc s).1 := rfl

/-- Settles O11: fetch and body keep `CYC`, and the cost added last is that of the byte read at `PC`; a step before `POWER_ON`
answers no next state. -/
theorem stepAddsTheCostOfItsOpcode : Obligations.StepAddsTheCostOfItsOpcode := by
  unfold Obligations.StepAddsTheCostOfItsOpcode
  intro s t h
  cases hon : s.poweredOn with
  | false => cases (step_of_not_poweredOn hon).symm.trans h
  | true =>
    obtain ⟨u, -, hevolves, hstep⟩ := step_of_poweredOn hon
    obtain rfl := Host.Outcome.next.inj (hstep.symm.trans h)
    rw [State.setCyc_cyc, hevolves.cyc, fetchInstr_op]

/-! ## `POWER_ON` (R270, R271, 10_state.md R36) -/

/-- The reset vector lies in the cartridge's high page, so memory stands behind it. -/
theorem peek_resetVector (s : State) :
    ∃ lo hi, s.peek resetVector = some lo ∧ s.peek (resetVector + 1) = some hi :=
  ⟨_, _, peek_of_prgIndex (prgIndex_highPage s.prgPages (k := 0x3FFC) (by decide)),
    peek_of_prgIndex (prgIndex_highPage s.prgPages (k := 0x3FFD) (by decide))⟩

/-- The vector is read after the registers are set, which memory does not show. -/
theorem powerOn_pc {s : State} {lo hi : Byte} (hlo : s.peek resetVector = some lo)
    (hhi : s.peek (resetVector + 1) = some hi) : (powerOn s).pc = word hi lo := by
  rw [powerOn, State.setPc_pc, memRead16_of_peek (lo := lo) (hi := hi)]
  · exact hlo
  · exact hhi

/-- The machine after `POWER_ON` in full, from the bytes of its reset vector. -/
theorem powerOn_of_peek {s : State} {lo hi : Byte} (hlo : s.peek resetVector = some lo)
    (hhi : s.peek (resetVector + 1) = some hi) :
    powerOn s = { s with
      a := 0x00, x := 0x00, y := 0x00, sp := 0xFD, pc := word hi lo, p := Status.reset, cyc := Config.cycInit,
      poweredOn := true } := by
  rw [powerOn_eq, powerOn_pc hlo hhi]

/-- The blank cartridge's reset vector is 0x0000, which is where `State.reset` has its `PC`. -/
theorem powerOn_reset : powerOn State.reset = State.reset :=
  powerOn_of_peek (s := State.reset) (lo := 0x00) (hi := 0x00) rfl rfl

theorem statusImage_reset : StatusImage Status.reset Status.reset.b 0x34 := by
  unfold StatusImage
  decide

/-- Settles O16: the reset vector always shows two bytes, and nothing but the fields listed is set. -/
theorem powerOnEstablishesTheResetState : Obligations.PowerOnEstablishesTheResetState := by
  unfold Obligations.PowerOnEstablishesTheResetState
  refine ⟨powerOn_reset, rfl, fun s => ?_⟩
  obtain ⟨lo, hi, hlo, hhi⟩ := peek_resetVector s
  have hwhole := powerOn_of_peek hlo hhi
  refine ⟨lo, hi, hlo, hhi, hwhole, ?_, fun b => ?_⟩
  · rw [hwhole]
    exact statusImage_reset
  · rw [hwhole]
    rfl

end Sys2Proof.Proofs
